-- ==== Sys2Proof/Word.lean ====
section
/-! DEFINITION. The widths of the engine's values (rules R7, R6): bytes, lanes, command words and operands. -/

namespace Sys2Proof

/-- A byte, bit 0 least significant (rule R7). -/
abbrev Byte := BitVec 8

/-- A lane, "a 64-bit unsigned word; the atomic unit of state" (rule R100). -/
abbrev Lane := BitVec 64

/-- A command word, `CMD_WIDTH` = 32 bits (rule R300). -/
abbrev Word := BitVec 32

/-- A command's operand `imm24`, an unsigned number of `IMM_WIDTH` = 24 bits (rules R300, R302). -/
abbrev Imm := BitVec 24

end Sys2Proof
end

