-- ==== Sys2Proof/Config.lean ====
section
/-! DEFINITION. The hardwired parameters of rule R6. They are constants of the design and cannot be changed; the spec
leaves no value of the engine open, so there is no free value here. -/

namespace Sys2Proof.Config

/-- `l` = log2 of the lane width: the last `j` of a round constant (rules R6, R423). -/
def logWidth : Nat := 6

/-- `NLANES`, 5 x 5 lanes (rule R6). -/
def nLanes : Nat := 25

/-- `stateBytes`, the 1600 bits of the state in bytes (rule R6). -/
def stateBytes : Nat := 200

/-- `totalRounds` = 12 + 2 * l = 24 (rule R6). -/
def totalRounds : Nat := 24

/-- `rateBytes`, 1344 bits absorbed or squeezed per permutation call (rule R6). -/
def rateBytes : Nat := 168

/-- `rateLanes`, the lanes with index 0 .. 20 (rules R6, R102). -/
def rateLanes : Nat := 21

/-- `capacityBytes`, 256 bits of hidden state (rule R6). -/
def capacityBytes : Nat := 32

/-- `OUTLEN_MAX`, the largest output length one `SQUEEZE` can request (rule R6). -/
def outLenMax : Nat := 2 ^ 24 - 1

/-- `LFSR_INIT` (rule R6). -/
def lfsrInit : BitVec 8 := 0b00000001#8

/-- `LFSR_TAPS` (rule R6). -/
def lfsrTaps : BitVec 8 := 0b01110001#8

/-- `LFSR_PERIOD` (rule R6). -/
def lfsrPeriod : Nat := 255

end Sys2Proof.Config
end

