-- ==== Sys2Proof/Syntax.lean ====
section
/-! DEFINITION. The engine's 19 commands (rule R305), one constructor per row of spec/opcode_table.json. -/

namespace Sys2Proof

/-- A command with its operand as it stands in the word (rule R302): `len` a byte count, `i`, `t`, `ir`, `nr` an index
or a count, `code` the host's failure code. Format N commands have no operand (rule R301). -/
inductive Instr where
  /-- Load state lanes from bytes (rule R403). -/
  | ldst (len : Imm)
  /-- Read state lanes as bytes (rule R404). -/
  | rdst (len : Imm)
  /-- Read one rotation offset (rule R413). -/
  | rdrho (i : Imm)
  /-- Read one bit of the LFSR sequence (rule R425). -/
  | rdrcb (t : Imm)
  /-- Read one round constant (rule R426). -/
  | rdrc (ir : Imm)
  /-- Apply theta to the lanes (rule R440). -/
  | theta
  /-- Apply rho to the lanes (rule R441). -/
  | rho
  /-- Apply pi to the lanes (rule R442). -/
  | pi
  /-- Apply chi to the lanes (rule R443). -/
  | chi
  /-- Apply iota with the constant of round `ir` (rule R444). -/
  | iota (ir : Imm)
  /-- Apply one whole round with round index `ir` (rule R445). -/
  | round (ir : Imm)
  /-- Apply the last `nr` rounds of the permutation (rule R446). -/
  | permute (nr : Imm)
  /-- Run the padding encoder on a chunk (rule R462). -/
  | pad (len : Imm)
  /-- Start a digest (rule R472). -/
  | init
  /-- Absorb one chunk of the input stream (rule R473). -/
  | absorb (len : Imm)
  /-- Produce the digest and end the computation (rule R474). -/
  | squeeze (len : Imm)
  /-- Report that the host's reader failed (rule R475). -/
  | fail (code : Imm)
  /-- Read the status registers (rule R500). -/
  | rdsr
  /-- Clear the fault and return to `IDLE` (rule R501). -/
  | clrf
  deriving DecidableEq, Repr

end Sys2Proof
end

