-- ==== Sys2Proof/Machine/Operands.lean ====
section
/-! DEFINITION. What the operand of each command means: its legal range, its granularity, and the payload lengths it
states (the columns "operand and legal range", "in" and "out" of rule R305). -/

namespace Sys2Proof

/-- The operand field `imm24` of a command; 0 for format N (rule R301). -/
def Instr.operand : Instr → Imm
  | .ldst len | .rdst len | .pad len | .absorb len | .squeeze len => len
  | .rdrho i => i
  | .rdrcb t => t
  | .rdrc ir | .iota ir | .round ir => ir
  | .permute nr => nr
  | .fail code => code
  | .theta | .rho | .pi | .chi | .init | .rdsr | .clrf => 0

/-- The largest legal operand of each command (rules R305, R605). `RDRCB`, `SQUEEZE` and `FAIL` accept every 24-bit
value; a format N command has the operand 0 only. -/
def Instr.operandMax : Instr → Nat
  | .ldst _ | .rdst _ => Config.stateBytes
  | .rdrho _ => Config.nLanes - 1
  | .rdrcb _ | .squeeze _ | .fail _ => Config.outLenMax
  | .rdrc _ | .iota _ | .round _ => Config.totalRounds - 1
  | .permute _ => Config.totalRounds
  | .pad _ => Config.rateBytes - 1
  | .absorb _ => Config.rateBytes
  | .theta | .rho | .pi | .chi | .init | .rdsr | .clrf => 0

/-- Step 3 of rule R306: the operand lies in the row's range. -/
def Instr.inRange (i : Instr) : Bool := i.operand.toNat ≤ i.operandMax

/-- Step 4 of rule R306: `LDST` and `RDST` move whole lanes only (rules R204, R601); no other command asks for it. -/
def Instr.wholeLanes : Instr → Bool
  | .ldst len | .rdst len => len.toNat % 8 == 0
  | .rdrho _ | .rdrcb _ | .rdrc _ | .theta | .rho | .pi | .chi | .iota _ | .round _ | .permute _ | .pad _ | .init
  | .absorb _ | .squeeze _ | .fail _ | .rdsr | .clrf => true

/-- `|In|`: how many input payload bytes a command takes when it completes (rules R303, R305). -/
def Instr.inBytes : Instr → Nat
  | .ldst len | .pad len | .absorb len => len.toNat
  | .rdst _ | .rdrho _ | .rdrcb _ | .rdrc _ | .theta | .rho | .pi | .chi | .iota _ | .round _ | .permute _ | .init
  | .squeeze _ | .fail _ | .rdsr | .clrf => 0

/-- `|Out|`: how many output payload bytes a command gives when it completes (rules R303, R305). -/
def Instr.outBytes : Instr → Nat
  | .rdst len | .squeeze len => len.toNat
  | .rdrho _ | .rdrcb _ => 1
  | .rdrc _ | .rdsr => 8
  | .pad _ => Config.rateBytes
  | .ldst _ | .theta | .rho | .pi | .chi | .iota _ | .round _ | .permute _ | .init | .absorb _ | .fail _ | .clrf => 0

end Sys2Proof
end

