-- ==== Sys2Proof/Decode.lean ====
section
/-! DEFINITION. The command word (rules R300 to R309): a total decoder that rejects by name, and the encoder. -/

namespace Sys2Proof

/-- Why a word selects no row of the opcode map (rule R307). Both raise IllegalCommand (rule R603). -/
inductive Illegal where
  /-- One of the 237 opcodes the map does not assign. -/
  | unassignedOpcode (opcode : BitVec 8)
  /-- A format N opcode with a non-zero `imm24`. -/
  | nonZeroOperand (opcode : BitVec 8) (imm : Imm)
  deriving DecidableEq, Repr

/-- The field `opcode`, bits [31:24] (rule R300). -/
def opcodeField (w : Word) : BitVec 8 := w.extractLsb' 24 8

/-- The field `imm24`, bits [23:0] (rule R300). -/
def immField (w : Word) : Imm := w.extractLsb' 0 24

/-- A format N row: its mask covers all 32 bits, so any other operand than 0 selects no row (rules R301, R305). -/
def decodeFormatN (w : Word) (i : Instr) : Except Illegal Instr :=
  if immField w = 0 then .ok i else .error (.nonZeroOperand (opcodeField w) (immField w))

/-- Step 1 of rule R306: the row of rule R305 that the word selects, with its operand. -/
def decode (w : Word) : Except Illegal Instr :=
  match (opcodeField w).toNat with
  | 0x10 => .ok (.ldst (immField w))
  | 0x11 => .ok (.rdst (immField w))
  | 0x20 => .ok (.rdrho (immField w))
  | 0x30 => .ok (.rdrcb (immField w))
  | 0x31 => .ok (.rdrc (immField w))
  | 0x40 => decodeFormatN w .theta
  | 0x41 => decodeFormatN w .rho
  | 0x42 => decodeFormatN w .pi
  | 0x43 => decodeFormatN w .chi
  | 0x44 => .ok (.iota (immField w))
  | 0x45 => .ok (.round (immField w))
  | 0x46 => .ok (.permute (immField w))
  | 0x50 => .ok (.pad (immField w))
  | 0x60 => decodeFormatN w .init
  | 0x61 => .ok (.absorb (immField w))
  | 0x62 => .ok (.squeeze (immField w))
  | 0x63 => .ok (.fail (immField w))
  | 0x70 => decodeFormatN w .rdsr
  | 0x71 => decodeFormatN w .clrf
  | _ => .error (.unassignedOpcode (opcodeField w))

/-- The opcode of each command (the first column of rule R305). -/
def Instr.opcode : Instr → BitVec 8
  | .ldst _ => 0x10
  | .rdst _ => 0x11
  | .rdrho _ => 0x20
  | .rdrcb _ => 0x30
  | .rdrc _ => 0x31
  | .theta => 0x40
  | .rho => 0x41
  | .pi => 0x42
  | .chi => 0x43
  | .iota _ => 0x44
  | .round _ => 0x45
  | .permute _ => 0x46
  | .pad _ => 0x50
  | .init => 0x60
  | .absorb _ => 0x61
  | .squeeze _ => 0x62
  | .fail _ => 0x63
  | .rdsr => 0x70
  | .clrf => 0x71

/-- A command word from its two fields (rule R300). -/
def wordOf (opcode : BitVec 8) (imm : Imm) : Word := opcode ++ imm

/-- The command word of a command (rules R300, R305). -/
def encode (i : Instr) : Word := wordOf i.opcode i.operand

/-- The pairs (match, mask) of rule R305's column "word", in the table's order. -/
def opcodeRows : List (Word × Word) :=
  [(0x10000000, 0xFF000000), (0x11000000, 0xFF000000), (0x20000000, 0xFF000000), (0x30000000, 0xFF000000),
   (0x31000000, 0xFF000000), (0x40000000, 0xFFFFFFFF), (0x41000000, 0xFFFFFFFF), (0x42000000, 0xFFFFFFFF),
   (0x43000000, 0xFFFFFFFF), (0x44000000, 0xFF000000), (0x45000000, 0xFF000000), (0x46000000, 0xFF000000),
   (0x50000000, 0xFF000000), (0x60000000, 0xFFFFFFFF), (0x61000000, 0xFF000000), (0x62000000, 0xFF000000),
   (0x63000000, 0xFF000000), (0x70000000, 0xFFFFFFFF), (0x71000000, 0xFFFFFFFF)]

/-- A word selects a row when `(word and mask) = match` (rule R305). -/
def selects (w : Word) (row : Word × Word) : Bool := w &&& row.2 = row.1

/-- The instruction read from the low `nbits` bits of `w`, all higher bits 0. A word is a value and not a byte sequence
(rule R203), so no byte order enters. -/
def decodeTableWord (nbits w : Nat) : Option Instr :=
  match decode (BitVec.ofNat 32 (w % 2 ^ nbits)) with
  | .ok i => some i
  | .error _ => none

end Sys2Proof
end

