-- ==== Sys2Proof/Machine/State.lean ====
section
/-! DEFINITION. All the state the spec gives the engine (file 10), the response port, and the host's inputs to come. -/

namespace Sys2Proof.Machine

/-- The register `PHASE`: where the engine is in the life of a digest (rule R104). -/
inductive Phase where
  /-- 0: no digest in progress; the lanes belong to the host. -/
  | idle
  /-- 1: a digest is in progress and more input is expected. -/
  | absorb
  /-- 2: the final padded block has been absorbed; output may be requested once. -/
  | squeeze
  /-- 3: an exception was taken; everything but `RDSR` and `CLRF` is refused. -/
  | fault
  deriving DecidableEq, Repr

/-- The exceptions of rule R600. Each is a NEXT state of the engine, never a stop of the model. -/
inductive Exc where
  /-- 1 (rule R601). -/
  | invalidLength
  /-- 2 (rule R602). -/
  | streamFailure
  /-- 3 (rule R603). -/
  | illegalCommand
  /-- 4 (rule R604). -/
  | phaseError
  /-- 5 (rule R605). -/
  | operandRange
  deriving DecidableEq, Repr

/-- How a command ends (rule R304): with `OK` and its output payload, or with an exception's code and no output. -/
inductive Response where
  /-- Response code 0 and `Out`. -/
  | ok (out : List Byte)
  /-- The exception's code as response code; `Out` is empty. -/
  | raised (e : Exc)
  deriving DecidableEq, Repr

/-- What the host sends (rule R704): a command as a (word, payload) pair, the form decision D30 gives the command stream,
or the reset event of rule R700. -/
inductive HostInput where
  /-- A command word with the payload bytes the host holds out for it. -/
  | command (word : Word) (payload : List Byte)
  /-- The event `reset`. -/
  | reset
  deriving DecidableEq, Repr

/-- The 25 lanes by flat index (rules R100, R101). -/
abbrev Lanes := Vector Lane 25

/-- The machine: the engine's state (rules R100, R104 to R106), its response port (rule R304) and the host's inputs to
come (rule R5, decision D30). `STATUS` is a view of `phase` and `err` (`statusWord`, rule R105). -/
structure State where
  /-- The general registers `A[0]` .. `A[24]` (rule R100). -/
  lanes : Lanes
  /-- `PHASE` (rule R104). -/
  phase : Phase
  /-- `STATUS.ERR`, where `none` is the code 0 (rule R105). -/
  err : Option Exc
  /-- `ERRCMD` (rule R106). -/
  errCmd : Word
  /-- What the last command answered (rule R304); `none` while no command has answered since reset. -/
  response : Option Response
  /-- The host's inputs not yet taken, the next one first (DESIGN CHOICE, log 1). -/
  host : List HostInput
  deriving DecidableEq, Repr

/-- The one way the model stops. -/
inductive Fault where
  /-- Raised by any command that has passed its checks and whose payload has another length than its word states. Rule
  R303 says that such a payload "cannot be expressed", so the spec gives no effect. Safe: the model stops. -/
  | payloadFraming
  deriving DecidableEq, Repr

/-- Why an instruction has no meaning. -/
inductive Refusal where
  /-- Raised by the dispatcher for an instruction that has no meaning yet; no arm does so now. Safe: the model stops. -/
  | notModelled (mnemonic : String)
  deriving DecidableEq, Repr

/-- The machine right after reset (rules R112, R700, R701); no response and no host input yet (log 4, log 5). -/
def State.reset : State where
  lanes := Vector.replicate 25 0
  phase := .idle
  err := none
  errCmd := 0
  response := none
  host := []

end Sys2Proof.Machine
end

