-- ==== Sys2Proof/Machine/Flags.lean ====
section
/-! DEFINITION. The status registers as the host sees them. No operation of the engine produces a carry, zero, sign or
overflow flag (rule R105): `ERR` is its only flag. -/

namespace Sys2Proof.Machine

/-- The 2-bit value of `PHASE` (rule R104). -/
def Phase.code : Phase → BitVec 2
  | .idle => 0
  | .absorb => 1
  | .squeeze => 2
  | .fault => 3

/-- The code of an exception (rule R600). -/
def Exc.code : Exc → BitVec 4
  | .invalidLength => 1
  | .streamFailure => 2
  | .illegalCommand => 3
  | .phaseError => 4
  | .operandRange => 5

/-- `STATUS.ERR`: 0 for no exception (rule R105). -/
def errCode : Option Exc → BitVec 4
  | none => 0
  | some e => e.code

/-- The 8-bit response code `resp` (rule R304). -/
def Response.code : Response → BitVec 8
  | .ok _ => 0
  | .raised e => e.code.setWidth 8

/-- The output payload `Out`, empty when `resp != 0` (rule R304). -/
def Response.out : Response → List Byte
  | .ok out => out
  | .raised _ => []

/-- `STATUS`: `PHASE` in [1:0], `ERR` in [7:4], all other bits 0 (rule R105). -/
def statusWord (s : State) : Word := 0#24 ++ errCode s.err ++ 0#2 ++ s.phase.code

end Sys2Proof.Machine
end

