-- ==== Sys2Proof/Machine/Lanes.lean ====
section
/-! DEFINITION. The lanes by coordinates (rule R101), the lane codec (rules R400, R401) and the 200-byte view of the
state (rule R202) with the primitives `MemRead` and `MemWrite` on it (rule R9). -/

namespace Sys2Proof.Machine

/-- The flat index `5*y + x` of the lane at `(x, y)`, both taken modulo 5 (rule R101). -/
def laneIndex (x y : Nat) : Fin 25 := ⟨5 * (y % 5) + x % 5, by omega⟩

/-- `S[x,y]` (rule R9). -/
def laneAt (S : Lanes) (x y : Nat) : Lane := S[laneIndex x y]

/-- The state whose lane at `(x, y)` is `f x y`. -/
def lanesOf (f : Nat → Nat → Lane) : Lanes := Vector.ofFn fun i => f (i.val % 5) (i.val / 5)

/-- The all-zero state. -/
def zeroState : Lanes := Vector.replicate 25 0

/-- Byte `k` of a lane, `(v >> (8*k)) and 0xFF` (rule R200). -/
def laneByte (v : Lane) (k : Nat) : Byte := (v >>> (8 * k)).setWidth 8

/-- Byte `k` of a command-word-sized register, least significant first (rule R203). -/
def wordByte (v : Word) (k : Nat) : Byte := (v >>> (8 * k)).setWidth 8

/-- The value of byte `n` of a byte sequence. The default stands for positions past the end, which rules R400 and R460
do not ask for (log 12). -/
def byteNat (s : List Byte) (n : Nat) : Nat := (s.getD n 0).toNat

/-- Lane `j` of `lanesFromBytes(s)`: "each 8-byte group maps to one 64-bit lane using little-endian byte order"
(rules R200, R400). -/
def laneOfBytes (s : List Byte) (j : Nat) : Lane :=
  BitVec.ofNat 64
    (byteNat s (8 * j) + 2 ^ 8 * byteNat s (8 * j + 1) + 2 ^ 16 * byteNat s (8 * j + 2) + 2 ^ 24 * byteNat s (8 * j + 3)
      + 2 ^ 32 * byteNat s (8 * j + 4) + 2 ^ 40 * byteNat s (8 * j + 5) + 2 ^ 48 * byteNat s (8 * j + 6)
      + 2 ^ 56 * byteNat s (8 * j + 7))

/-- The lanes of the whole 8-byte groups of a byte sequence. -/
def laneGroups (s : List Byte) : List Lane := (List.range (s.length / 8)).map (laneOfBytes s)

/-- `lanesFromBytes(s)` (rule R400), which has no value when the length is not a multiple of 8. -/
def lanesFromBytes (s : List Byte) : Option (List Lane) :=
  if s.length % 8 = 0 then some (laneGroups s) else none

/-- The eight bytes of a lane, least significant first (rule R401). -/
def laneBytes (v : Lane) : List Byte := (List.range 8).map (laneByte v)

/-- `bytesFromLanes(L)` (rule R401). -/
def bytesFromLanes (L : List Lane) : List Byte := L.flatMap laneBytes

/-- The state byte view, 200 bytes (rule R202). -/
def stateView (S : Lanes) : List Byte := bytesFromLanes S.toList

/-- `MemRead(off, n)`: bytes `off .. off+n-1` of the state byte view (rule R9). -/
def memRead (S : Lanes) (off n : Nat) : List Byte := ((stateView S).drop off).take n

/-- Write lane `j` of `L` to lane `j` of the state, for each lane of `L`; the others keep their values (rule R403). -/
def writeLanes (S : Lanes) (L : List Lane) : Lanes := Vector.ofFn fun i => (L[i.val]?).getD S[i]

/-- `MemWrite(off, |v|, v)`: replace those bytes of the state byte view and leave all others (rule R9). -/
def memWrite (S : Lanes) (off : Nat) (v : List Byte) : Lanes :=
  writeLanes S (laneGroups ((stateView S).take off ++ v ++ (stateView S).drop (off + v.length)))

end Sys2Proof.Machine
end

