-- ==== Sys2Proof/Machine/Ops.lean ====
section
/-! DEFINITION. The shared operations: register writes, completing a command, trap entry and the refusal in `FAULT`
(rules R609, R610), the return from it (rule R611), reset (rule R700), and the checks every command goes through before
anything moves (rule R306). -/

namespace Sys2Proof.Machine

/-- `A <- S` (rule R9). -/
def State.setLanes (s : State) (S : Lanes) : State := { s with lanes := S }

/-- `PHASE <- p` (rule R9). -/
def State.setPhase (s : State) (p : Phase) : State := { s with phase := p }

/-- `resp <- OK ; Out <- out` (rules R9, R304). -/
def State.complete (s : State) (out : List Byte) : State := { s with response := some (.ok out) }

/-- The response of a command that raised; nothing else changes. -/
def State.answerRaised (s : State) (e : Exc) : State := { s with response := some (.raised e) }

/-- Trap entry (rule R609): the code and the word are latched, the lanes zeroed, `PHASE <- FAULT`. -/
def State.trapEntry (s : State) (e : Exc) (cmd : Word) : State :=
  { s with err := some e, errCmd := cmd, lanes := zeroState, phase := .fault, response := some (.raised e) }

/-- `raise X(cmd)`: trap entry outside `FAULT` (rule R609), a bare response code in `FAULT` (rule R610). -/
def State.raise (s : State) (e : Exc) (cmd : Word) : State :=
  if s.phase = .fault then s.answerRaised e else s.trapEntry e cmd

/-- Leaving `FAULT` by `CLRF` (rules R501, R611). -/
def State.clearFault (s : State) : State :=
  { s with err := none, errCmd := 0, lanes := zeroState, phase := .idle }

/-- The event `reset` (rule R700). It is no command and has no response; what the host sends after it stays to come. -/
def State.applyReset (s : State) : State := { State.reset with host := s.host.tail }

/-- The host's next input has been taken, a payload no command took with it (log 3). -/
def State.popHost (s : State) : State := { s with host := s.host.tail }

/-- `In` as the host holds it out: the payload of the command at the head of the host's inputs (decision D30). -/
def State.offered (s : State) : List Byte :=
  match s.host with
  | .command _ payload :: _ => payload
  | _ => []

/-- The phases in which a command is legal (the column "phases" of rule R305; rule R604). -/
def legalIn (i : Instr) (p : Phase) : Bool :=
  match i with
  | .ldst _ | .rdst _ | .theta | .rho | .pi | .chi | .iota _ | .round _ | .permute _ | .init => p == .idle
  | .rdrho _ | .rdrcb _ | .rdrc _ | .pad _ => p == .idle || p == .absorb || p == .squeeze
  | .absorb _ | .fail _ => p == .absorb
  | .squeeze _ => p == .squeeze
  | .rdsr | .clrf => true

/-- Steps 2 to 4 of rule R306: the first check that fails, in the order of rule R608. -/
def firstFailure (i : Instr) (s : State) : Option Exc :=
  if !legalIn i s.phase then some .phaseError
  else if !i.inRange then some .operandRange
  else if !i.wholeLanes then some .invalidLength
  else none

/-- Rule R306 for a word that selects the row of `i`: raise the first failing check, before any payload moves; else take
`|In|` payload bytes and run the command's rule, `body`. A payload of another length cannot be expressed (rule R303; log 2).
The word a failing check latches is the command's own (log 10). -/
def checked (i : Instr) (s : State) (body : List Byte → State) : Host.Outcome State Fault Refusal :=
  match firstFailure i s with
  | some e => .next (s.raise e (encode i))
  | none => if s.offered.length = i.inBytes then .next (body s.offered) else .fault .payloadFraming

end Sys2Proof.Machine
end

