-- ==== Sys2Proof/Machine/Codec.lean ====
section
/-! DEFINITION. The lane codec commands `LDST` and `RDST` (file 40). -/

namespace Sys2Proof.Machine

/-- `LDST #LEN, <bytes>` (rule R403). -/
def execLdst (len : Imm) (s : State) : Host.Outcome State Fault Refusal :=
  checked (.ldst len) s fun inp => (s.setLanes (writeLanes s.lanes (laneGroups inp))).complete []

/-- `RDST #LEN` (rule R404). -/
def execRdst (len : Imm) (s : State) : Host.Outcome State Fault Refusal :=
  checked (.rdst len) s fun _ => s.complete (bytesFromLanes (s.lanes.toList.take (len.toNat / 8)))

end Sys2Proof.Machine
end

