-- ==== Sys2Proof/Machine/Padding.lean ====
section
/-! DEFINITION. The padding rule encoder and `PAD` (file 44). -/

namespace Sys2Proof.Machine

/-- Byte `k` of `pad(c)` (rule R460): the chunk, then 0x1F (suffix `1111` and the first padding 1), then zeros; the last
byte has the terminal 1 ORed into its bit 7. -/
def padByte (c : List Byte) (k : Nat) : Byte :=
  let b : Byte := if k < c.length then c.getD k 0 else if k = c.length then 0x1F else 0x00
  if k = Config.rateBytes - 1 then b ||| 0x80 else b

/-- `pad(c)`, a block of 168 bytes, for a chunk of fewer than 168 bytes (rule R460). -/
def pad (c : List Byte) : List Byte := (List.range Config.rateBytes).map (padByte c)

/-- `PAD #LEN, <bytes>` (rule R462). -/
def execPad (len : Imm) (s : State) : Host.Outcome State Fault Refusal :=
  checked (.pad len) s fun inp => s.complete (pad inp)

end Sys2Proof.Machine
end

