-- ==== Sys2Proof/Machine/Rotation.lean ====
section
/-! DEFINITION. The rotation-offset table and `RDRHO` (file 41). The table is a constant of the design (rule R107). -/

namespace Sys2Proof.Machine

/-- The recurrence of rule R410 from step `t` at position `(x, y)`, for `n` steps. -/
def rhoFill : Nat → Nat → Nat → Nat → Vector (BitVec 6) 25 → Vector (BitVec 6) 25
  | 0, _, _, _, T => T
  | n + 1, t, x, y, T =>
    rhoFill n (t + 1) y ((2 * x + 3 * y) % 5) (T.set (laneIndex x y) (BitVec.ofNat 6 ((t + 1) * (t + 2) / 2 % 64)))

/-- `RHO[0..24]`: lane (0,0) has offset 0, the others are visited from (1,0) for `t` = 0 .. 23 (rules R410, R411). -/
def rhoTable : Vector (BitVec 6) 25 := rhoFill 24 0 1 0 (Vector.replicate 25 0)

/-- `RHO[x,y]` as a rotation amount. -/
def rhoOffset (x y : Nat) : Nat := (rhoTable[laneIndex x y]).toNat

/-- `RDRHO #i` (rule R413): one byte, bits 7:6 zero. -/
def execRdrho (i : Imm) (s : State) : Host.Outcome State Fault Refusal :=
  checked (.rdrho i) s fun _ => s.complete [(rhoTable.getD i.toNat 0).setWidth 8]

end Sys2Proof.Machine
end

