-- ==== Sys2Proof/Machine/RoundConstant.lean ====
section
/-! DEFINITION. The round-constant generator with `RDRCB` and `RDRC` (file 42). The tables `RCB` and `RC` are constants of
the design (rule R107), so they are functions here. -/

namespace Sys2Proof.Machine

/-- One iteration of the register `LF` (rule R420). -/
def lfsrStep (lf : BitVec 8) : BitVec 8 :=
  let t : BitVec 9 := lf.setWidth 9 <<< 1
  if t.getLsbD 8 then t.setWidth 8 ^^^ Config.lfsrTaps else t.setWidth 8

/-- The register after `n` iterations from `LFSR_INIT` (rule R421). -/
def lfsrAfter : Nat → BitVec 8
  | 0 => Config.lfsrInit
  | n + 1 => lfsrStep (lfsrAfter n)

/-- `rc(t)` = `RCB[t mod 255]` (rules R421, R422). -/
def rcBit (t : Nat) : Bool := (lfsrAfter (t % Config.lfsrPeriod)).getLsbD 0

/-- `RC(ir)`: bit `2^j - 1` is set when `rc(j + 7*ir) = 1`, for `j` = 0 .. l (rule R423). -/
def roundConstant (ir : Nat) : Lane :=
  (List.range (Config.logWidth + 1)).foldl
    (fun v j => if rcBit (j + 7 * ir) then v ||| (1#64 <<< (2 ^ j - 1)) else v) 0

/-- `RDRCB #t` (rule R425). -/
def execRdrcb (t : Imm) (s : State) : Host.Outcome State Fault Refusal :=
  checked (.rdrcb t) s fun _ => s.complete [if rcBit t.toNat then 0x01 else 0x00]

/-- `RDRC #ir` (rule R426). -/
def execRdrc (ir : Imm) (s : State) : Host.Outcome State Fault Refusal :=
  checked (.rdrc ir) s fun _ => s.complete (bytesFromLanes [roundConstant ir.toNat])

end Sys2Proof.Machine
end

