-- ==== Sys2Proof/Machine/Permutation.lean ====
section
/-! DEFINITION. The permutation engine (file 43): the five step mappings, the round, the permutation, and the seven
commands that apply them. Every mapping computes a new state from the old one (rule R430). -/

namespace Sys2Proof.Machine

/-- `ROTL64(v, n)`, rotation toward the most significant bit (rule R8). -/
def rotl64 (v : Lane) (n : Nat) : Lane := v.rotateLeft n

/-- The parity `C[x]` of column `x` (rule R431). -/
def columnParity (S : Lanes) (x : Nat) : Lane :=
  laneAt S x 0 ^^^ laneAt S x 1 ^^^ laneAt S x 2 ^^^ laneAt S x 3 ^^^ laneAt S x 4

/-- The correction `D[x]` of column `x`: the parity of column `x+1` is the one that is rotated (rule R431). -/
def columnCorrection (S : Lanes) (x : Nat) : Lane :=
  columnParity S ((x + 4) % 5) ^^^ rotl64 (columnParity S ((x + 1) % 5)) 1

/-- The diffusion step (rule R431). -/
def theta (S : Lanes) : Lanes := lanesOf fun x y => laneAt S x y ^^^ columnCorrection S x

/-- The rotation step (rule R432). -/
def rho (S : Lanes) : Lanes := lanesOf fun x y => rotl64 (laneAt S x y) (rhoOffset x y)

/-- The permutation step: the new lane at `(x, y)` is the old lane at `((x+3y) mod 5, x)` (rule R433). -/
def pi (S : Lanes) : Lanes := lanesOf fun x y => laneAt S ((x + 3 * y) % 5) x

/-- The nonlinear step (rule R434). -/
def chi (S : Lanes) : Lanes :=
  lanesOf fun x y => laneAt S x y ^^^ (~~~(laneAt S ((x + 1) % 5) y) &&& laneAt S ((x + 2) % 5) y)

/-- The constant-injection step of round `ir`: lane (0,0) only (rule R435). -/
def iota (S : Lanes) (ir : Nat) : Lanes := S.set 0 (S[0] ^^^ roundConstant ir)

/-- `Rnd(S, ir)` (rule R436). -/
def rnd (S : Lanes) (ir : Nat) : Lanes := iota (chi (pi (rho (theta S)))) ir

/-- `permute(S, nr)`: rounds `24 - nr` .. 23, ascending (rule R437). -/
def permute (S : Lanes) (nr : Nat) : Lanes := (List.range' (Config.totalRounds - nr) nr).foldl rnd S

/-- `keccakF(S) = permute(S, 24)` (rule R438). -/
def keccakF (S : Lanes) : Lanes := permute S Config.totalRounds

/-- `THETA` (rule R440). -/
def execTheta (s : State) : Host.Outcome State Fault Refusal :=
  checked .theta s fun _ => (s.setLanes (theta s.lanes)).complete []

/-- `RHO` (rule R441). -/
def execRho (s : State) : Host.Outcome State Fault Refusal :=
  checked .rho s fun _ => (s.setLanes (rho s.lanes)).complete []

/-- `PI` (rule R442). -/
def execPi (s : State) : Host.Outcome State Fault Refusal :=
  checked .pi s fun _ => (s.setLanes (pi s.lanes)).complete []

/-- `CHI` (rule R443). -/
def execChi (s : State) : Host.Outcome State Fault Refusal :=
  checked .chi s fun _ => (s.setLanes (chi s.lanes)).complete []

/-- `IOTA #ir` (rule R444). -/
def execIota (ir : Imm) (s : State) : Host.Outcome State Fault Refusal :=
  checked (.iota ir) s fun _ => (s.setLanes (iota s.lanes ir.toNat)).complete []

/-- `ROUND #ir` (rule R445). -/
def execRound (ir : Imm) (s : State) : Host.Outcome State Fault Refusal :=
  checked (.round ir) s fun _ => (s.setLanes (rnd s.lanes ir.toNat)).complete []

/-- `PERMUTE #nr` (rule R446). -/
def execPermute (nr : Imm) (s : State) : Host.Outcome State Fault Refusal :=
  checked (.permute nr) s fun _ => (s.setLanes (permute s.lanes nr.toNat)).complete []

end Sys2Proof.Machine
end

