-- ==== Sys2Proof/Machine/Sponge.lean ====
section
/-! DEFINITION. The sponge controller `INIT`, `ABSORB`, `SQUEEZE`, `FAIL` (file 45). -/

namespace Sys2Proof.Machine

/-- XOR a block's lanes into the rate lanes 0 .. 20; the capacity lanes are not touched (rules R471, R476). -/
def xorRate (S : Lanes) (B : List Byte) : Lanes :=
  Vector.ofFn fun i => if i.val < Config.rateLanes then S[i] ^^^ (laneGroups B).getD i.val 0 else S[i]

/-- `absorbBlock(S, B)` for a block `B` of 168 bytes (rule R471). -/
def absorbBlock (S : Lanes) (B : List Byte) : Lanes := keccakF (xorRate S B)

/-- The 168 bytes one pass of `SQUEEZE` extracts: `bytesFromLanes(A[0], .., A[20])` (rule R474). -/
def extractBlock (S : Lanes) : List Byte := bytesFromLanes (S.toList.take Config.rateLanes)

/-- `n` passes of the loop of rule R474: each extracts first and permutes after, the last one too. It gives the bytes
produced and the state the loop leaves. -/
def squeezePasses : Nat → Lanes → List Byte × Lanes
  | 0, S => ([], S)
  | n + 1, S =>
    let r := squeezePasses n (keccakF S)
    (extractBlock S ++ r.1, r.2)

/-- How many passes `while |Z| < LEN` makes: `ceil(LEN / 168)` (rule R474). -/
def passCount (len : Nat) : Nat := (len + (Config.rateBytes - 1)) / Config.rateBytes

/-- `INIT` (rule R472). -/
def execInit (s : State) : Host.Outcome State Fault Refusal :=
  checked .init s fun _ => ((s.setLanes zeroState).setPhase .absorb).complete []

/-- `ABSORB #LEN, <bytes>` (rule R473): a full block is absorbed as it is; a shorter chunk is the last one. -/
def execAbsorb (len : Imm) (s : State) : Host.Outcome State Fault Refusal :=
  checked (.absorb len) s fun inp =>
    if len.toNat = Config.rateBytes then ((s.setLanes (absorbBlock s.lanes inp)).setPhase .absorb).complete []
    else ((s.setLanes (absorbBlock s.lanes (pad inp))).setPhase .squeeze).complete []

/-- `SQUEEZE #LEN` (rule R474): run the passes, truncate the output, discard the state the loop leaves (log 14). -/
def execSqueeze (len : Imm) (s : State) : Host.Outcome State Fault Refusal :=
  checked (.squeeze len) s fun _ =>
    let r := squeezePasses (passCount len.toNat) s.lanes
    (((s.setLanes r.2).setLanes zeroState).setPhase .idle).complete (r.1.take len.toNat)

/-- `FAIL #code` (rule R475): raises StreamFailure, always; this is the command's purpose. -/
def execFail (code : Imm) (s : State) : Host.Outcome State Fault Refusal :=
  checked (.fail code) s fun _ => s.raise .streamFailure (encode (.fail code))

end Sys2Proof.Machine
end

