-- ==== Sys2Proof/Machine/System.lean ====
section
/-! DEFINITION. The system commands `RDSR` and `CLRF` (file 47). -/

namespace Sys2Proof.Machine

/-- The eight bytes of `RDSR`: `STATUS` then `ERRCMD`, each least significant byte first (rule R500). -/
def statusBytes (s : State) : List Byte :=
  (List.range 4).map (wordByte (statusWord s)) ++ (List.range 4).map (wordByte s.errCmd)

/-- `RDSR` (rule R500). -/
def execRdsr (s : State) : Host.Outcome State Fault Refusal :=
  checked .rdsr s fun _ => s.complete (statusBytes s)

/-- `CLRF` (rule R501): outside `FAULT` nothing changes. -/
def execClrf (s : State) : Host.Outcome State Fault Refusal :=
  checked .clrf s fun _ => (if s.phase = .fault then s.clearFault else s).complete []

end Sys2Proof.Machine
end

