-- ==== Sys2Proof/Machine/Dispatch.lean ====
section
/-! DEFINITION. The dispatcher: one arm per command, each a direct call of its meaning. -/

namespace Sys2Proof.Machine

/-- What a command does to the machine (rule R306, steps 2 to 5). -/
def exec (i : Instr) (s : State) : Host.Outcome State Fault Refusal :=
  match i with
  | .ldst len => Sys2Proof.Machine.execLdst len s
  | .rdst len => Sys2Proof.Machine.execRdst len s
  | .rdrho idx => Sys2Proof.Machine.execRdrho idx s
  | .rdrcb t => Sys2Proof.Machine.execRdrcb t s
  | .rdrc ir => Sys2Proof.Machine.execRdrc ir s
  | .theta => Sys2Proof.Machine.execTheta s
  | .rho => Sys2Proof.Machine.execRho s
  | .pi => Sys2Proof.Machine.execPi s
  | .chi => Sys2Proof.Machine.execChi s
  | .iota ir => Sys2Proof.Machine.execIota ir s
  | .round ir => Sys2Proof.Machine.execRound ir s
  | .permute nr => Sys2Proof.Machine.execPermute nr s
  | .pad len => Sys2Proof.Machine.execPad len s
  | .init => Sys2Proof.Machine.execInit s
  | .absorb len => Sys2Proof.Machine.execAbsorb len s
  | .squeeze len => Sys2Proof.Machine.execSqueeze len s
  | .fail code => Sys2Proof.Machine.execFail code s
  | .rdsr => Sys2Proof.Machine.execRdsr s
  | .clrf => Sys2Proof.Machine.execClrf s

end Sys2Proof.Machine
end

