-- ==== Sys2Proof/WellFormed.lean ====
section
/-! DEFINITION. When a command is well formed: its operand is one that rule R305 lists as legal. Every command has an
encoding, the ill-formed ones too: they decode and then raise OperandRange or InvalidLength (rule R306; log 15). -/

namespace Sys2Proof

/-- The operand is in range (rule R306 step 3) and, for `LDST` and `RDST`, a whole number of lanes (step 4). -/
def Instr.wellFormed (i : Instr) : Bool := i.inRange && i.wholeLanes

end Sys2Proof
end

