-- ==== Sys2Proof/Machine/Fetch.lean ====
section
/-! DEFINITION. What the machine does around a command: taking the host's next input, the word that selects no row, and
the payload a command of a given word takes. The engine fetches nothing; the host hands each word over (rule R211). -/

namespace Sys2Proof.Machine

/-- A word that selects no row of the opcode map raises IllegalCommand and takes no payload (rules R303, R306, R603). -/
def illegalCommand (w : Word) (s : State) : Host.Outcome State Fault Refusal := .next (s.raise .illegalCommand w)

/-- The input has been taken when its command has ended; a stop leaves nothing to take. -/
def finish : Host.Outcome State Fault Refusal → Host.Outcome State Fault Refusal
  | .next s => .next s.popHost
  | .fault f => .fault f
  | .refused r => .refused r

/-- The payload that `withFetchWord` holds out: as many zero bytes as the word's command takes, none where the command
raises whatever the phase (log 13). -/
def zeroPayload (w : Word) : List Byte :=
  match decode w with
  | .ok i => if i.wellFormed then List.replicate i.inBytes 0 else []
  | .error _ => []

/-- The low `nbits` bits of `w` as a command word, all higher bits 0. -/
def tableWord (nbits w : Nat) : Word := BitVec.ofNat 32 (w % 2 ^ nbits)

end Sys2Proof.Machine
end

