-- ==== Sys2Proof/Machine/Step.lean ====
section
/-! DEFINITION. One step of the machine: the engine takes the host's next input. -/

namespace Sys2Proof.Machine

/-- One atomic transaction (rules R5, R205): with no input to take the engine waits, unchanged (rules R614, R704; log 4);
a reset event resets it (rule R700); a command word is decoded and its command runs (rule R306). -/
def step (s : State) : Host.Outcome State Fault Refusal :=
  match s.host with
  | [] => .next s
  | .reset :: _ => .next s.applyReset
  | .command w _ :: _ =>
    match decode w with
    | .error _ => finish (illegalCommand w s)
    | .ok i => finish (exec i s)

/-- The host's next input is the command word made of the low `nbits` bits of `w`, with a payload of zeros of the length
that word states (log 13). -/
def State.withFetchWord (s : State) (nbits w : Nat) : State :=
  { s with host := .command (tableWord nbits w) (zeroPayload (tableWord nbits w)) :: s.host }

end Sys2Proof.Machine
end

