-- ==== Sys2Proof/Machine/Facade.lean ====
section
/-! DEFINITION. The digest function and the pseudo-instructions `DIGEST` and `KECCAKF` (file 46, rule R311). They are no
commands: `DIGEST` is the command sequence the host runs. -/

namespace Sys2Proof.Machine

/-- The full 168-byte blocks of a message, in order (rule R490). -/
def fullBlocks (M : List Byte) : List (List Byte) :=
  (List.range (M.length / Config.rateBytes)).map fun k => (M.drop (Config.rateBytes * k)).take Config.rateBytes

/-- The last chunk of a message, `|M| mod 168` bytes, empty when the length is a multiple of 168 (rules R477, R490). -/
def lastChunk (M : List Byte) : List Byte := M.drop (Config.rateBytes * (M.length / Config.rateBytes))

/-- The state after a message has been absorbed from the all-zero state (rule R490). -/
def absorbMessage (M : List Byte) : Lanes :=
  absorbBlock ((fullBlocks M).foldl absorbBlock zeroState) (pad (lastChunk M))

/-- `digest(M, L)` (rule R490), defined for every `L`. -/
def digest (M : List Byte) (L : Nat) : List Byte := (squeezePasses (passCount L) (absorbMessage M)).1.take L

/-- The length of a chunk as an operand (rule R302). DESIGN CHOICE: from 2^24 on it is reduced modulo 2^24, which no chunk of
a `DIGEST` sequence reaches, each having at most 168 bytes (log 17). -/
def lengthOperand (n : Nat) : Imm := BitVec.ofNat 24 n

/-- The `ABSORB` command that presents one chunk of the message (rule R491). -/
def absorbChunk (c : List Byte) : HostInput := .command (encode (.absorb (lengthOperand c.length))) c

/-- `DIGEST M, #L` (rules R311, R491): `INIT`, one `ABSORB` per full block, exactly one `ABSORB` of the last chunk, also
when it is empty, then `SQUEEZE #L`. DESIGN CHOICE: `L` is a 24-bit operand, so a length above `OUTLEN_MAX`, which "cannot be
expressed in a command word" (item U13), has no sequence here (log 17). -/
def digestCommands (M : List Byte) (L : Imm) : List HostInput :=
  [.command (encode .init) []] ++ (fullBlocks M).map absorbChunk ++
    [absorbChunk (lastChunk M), .command (encode (.squeeze L)) []]

/-- `KECCAKF` is `PERMUTE #24` (rules R311, R492). -/
def keccakfInstr : Instr := .permute 24

end Sys2Proof.Machine
end

