-- ==== Sys2Proof/Safety.lean ====
section
/-! DEFINITION. The terms in which statements speak of sound states and safe runs. -/

namespace Sys2Proof

open Machine

/-- An exception code and a command word that may be latched together (the column "when" of rule R600): the word is one
that raises this exception in some phase other than `FAULT`. -/
def Explains (e : Exc) (w : Word) : Prop :=
  match e with
  | .illegalCommand => ∃ r, decode w = .error r
  | .streamFailure => ∃ code, decode w = .ok (.fail code)
  | .phaseError => ∃ i p, decode w = .ok i ∧ p ≠ .fault ∧ legalIn i p = false
  | .operandRange => ∃ i, decode w = .ok i ∧ i.inRange = false
  | .invalidLength => ∃ i, decode w = .ok i ∧ i.inRange = true ∧ i.wholeLanes = false

/-- The states the engine can be in. -/
structure Consistent (s : State) : Prop where
  /-- "`ERR != 0` if and only if `PHASE = FAULT`" (rule R105). -/
  err_iff_fault : s.err ≠ none ↔ s.phase = .fault
  /-- `ERRCMD` "is zero when `ERR = 0`" (rule R106). -/
  errCmd_zero : s.err = none → s.errCmd = 0
  /-- Trap entry zeroes the lanes and nothing in `FAULT` writes them (rules R609, R610). -/
  fault_lanes : s.phase = .fault → s.lanes = zeroState
  /-- After a response other than `OK` the engine is in `FAULT` (rule R707). -/
  raised_fault : ∀ e, s.response = some (.raised e) → s.phase = .fault
  /-- The latched code is one that the latched word raises (rules R600, R609). -/
  explained : ∀ e, s.err = some e → Explains e s.errCmd

/-- Go on from a next state; a stop stays a stop. -/
def andThen (o : Host.Outcome State Fault Refusal) (f : State → Host.Outcome State Fault Refusal) :
    Host.Outcome State Fault Refusal :=
  match o with
  | .next t => f t
  | .fault r => .fault r
  | .refused r => .refused r

/-- Commands run one after another, each on the state the one before left, stopping at the first stop. -/
def execAll : List Instr → State → Host.Outcome State Fault Refusal
  | [], s => .next s
  | i :: is, s => andThen (exec i s) (execAll is)

/-- The payload length of a command pair is the one its word states, "a function of the command word alone" (rule R303).
Nothing is asked of a word that raises in every phase, since no byte of its payload is taken. -/
def FramedInput : HostInput → Prop
  | .reset => True
  | .command w payload => ∀ i, decode w = .ok i → i.wellFormed = true → payload.length = i.inBytes

/-- Every input to come is framed as rule R303 says the transport frames it. -/
def Framed (s : State) : Prop := ∀ h ∈ s.host, FramedInput h

end Sys2Proof
end

