-- ==== Sys2Proof/Certificates/Slice0/Obligations.lean ====
section
/-! DEFINITION. The statements for the provers, each a rule of the spec. A statement about a next state writes the whole
state down as the state before with the named fields replaced, so it says the frame too: the engine has no memory beside
its lanes (rule R110), and every field not named keeps its value. -/

open Sys2Proof Sys2Proof.Machine

/-! ### Encoding (file 30) -/

/-- Every command is read back from its own word, whatever its operand (rules R300, R305). -/
def Obligations.DecodeOfEncodeIsTheCommand : Prop :=
  ∀ i : Instr, decode (encode i) = .ok i

/-- A word that decodes is the word of the command it decodes to, so no word has a second spelling (rule R308). -/
def Obligations.DecodedWordIsTheEncoding : Prop :=
  ∀ (w : Word) (i : Instr), decode w = .ok i → encode i = w

/-- "A word selects the row whose `(word and mask) = match`": the decoder reads exactly the words that select a row of
the table (rule R305). -/
def Obligations.WordDecodesExactlyWhenItSelectsARow : Prop :=
  ∀ w : Word, (∃ i, decode w = .ok i) ↔ ∃ row ∈ opcodeRows, w &&& row.2 = row.1

/-- "The 19 rows are disjoint" (rule R305). -/
def Obligations.NoWordSelectsTwoRows : Prop :=
  opcodeRows.length = 19 ∧
    opcodeRows.Pairwise fun a b => ∀ w : Word, ¬(w &&& a.2 = a.1 ∧ w &&& b.2 = b.1)

/-- The illegal words are those with an unassigned opcode and those of a format N opcode with a non-zero operand; each
raises IllegalCommand: trap entry outside `FAULT`, a bare response code in `FAULT` (rules R307, R603, R609, R610). That the
pair is then gone, its payload with it, is the model's choice (log 3, decision D30). -/
def Obligations.IllegalWordsRaiseIllegalCommand : Prop :=
  (∀ w : Word, (∃ r, decode w = .error r) ↔
    (opcodeField w).toNat ∉ [0x10, 0x11, 0x20, 0x30, 0x31, 0x40, 0x41, 0x42, 0x43, 0x44, 0x45, 0x46, 0x50, 0x60, 0x61,
      0x62, 0x63, 0x70, 0x71] ∨
    (opcodeField w).toNat ∈ [0x40, 0x41, 0x42, 0x43, 0x60, 0x70, 0x71] ∧ immField w ≠ 0) ∧
  (∃ r, decode 0x00000000 = .error r) ∧ (∃ r, decode 0xFFFFFFFF = .error r) ∧
  ∀ (s : State) (w : Word) (p : List Byte) (rest : List HostInput) (r : Illegal),
    s.host = .command w p :: rest → decode w = .error r →
    (s.phase ≠ .fault → step s = .next
      { lanes := Vector.replicate 25 0, phase := .fault, err := some .illegalCommand, errCmd := w,
        response := some (.raised .illegalCommand), host := rest }) ∧
    (s.phase = .fault → step s = .next { s with response := some (.raised .illegalCommand), host := rest })

/-- One word for each of the 19 rows, its opcode the one rule R305 gives the mnemonic, decodes to that command; three words
that select no row do not. -/
def Obligations.SampleWordsDecode : Prop :=
  decode 0x100000C8 = .ok (.ldst 200) ∧ decode 0x11000010 = .ok (.rdst 16) ∧ decode 0x20000018 = .ok (.rdrho 24) ∧
  decode 0x30FFFFFF = .ok (.rdrcb 16777215) ∧ decode 0x31000017 = .ok (.rdrc 23) ∧ decode 0x40000000 = .ok .theta ∧
  decode 0x41000000 = .ok .rho ∧ decode 0x42000000 = .ok .pi ∧ decode 0x43000000 = .ok .chi ∧
  decode 0x44000001 = .ok (.iota 1) ∧ decode 0x45000017 = .ok (.round 23) ∧ decode 0x46000018 = .ok (.permute 24) ∧
  decode 0x500000A7 = .ok (.pad 167) ∧ decode 0x60000000 = .ok .init ∧ decode 0x61000003 = .ok (.absorb 3) ∧
  decode 0x62FFFFFF = .ok (.squeeze 16777215) ∧ decode 0x63ABCDEF = .ok (.fail 0xABCDEF) ∧
  decode 0x70000000 = .ok .rdsr ∧ decode 0x71000000 = .ok .clrf ∧
  decode 0x40000001 = .error (.nonZeroOperand 0x40 1) ∧ decode 0x47000000 = .error (.unassignedOpcode 0x47) ∧
  decode 0xFFFFFFFF = .error (.unassignedOpcode 0xFF)

/-! ### The step (files 20, 30, 70) -/

/-- When the word the host hands over decodes to a command, the step is that command, and what the step adds around it is
only that the host's input has been taken (rule R306; log 1, and log 3 where the command raises). No command is refused. -/
def Obligations.StepRunsTheDecodedCommand : Prop :=
  ∀ (s : State) (w : Word) (p : List Byte) (rest : List HostInput) (i : Instr),
    s.host = .command w p :: rest → decode w = .ok i →
    s.offered = p ∧
    (∀ t, exec i s = .next t → t.host = s.host ∧ step s = .next { t with host := rest }) ∧
    (∀ f, exec i s = .fault f → step s = .fault f) ∧
    ∀ r, exec i s ≠ .refused r

/-- Reset, in any phase and between any two commands, zeroes the lanes and `ERRCMD`, clears `ERR`, makes the phase `IDLE`,
and gives no response (rule R700). -/
def Obligations.ResetEventGivesTheResetState : Prop :=
  ∀ (s : State) (rest : List HostInput), s.host = .reset :: rest →
    step s = .next
      { lanes := Vector.replicate 25 0, phase := .idle, err := none, errCmd := 0, response := none, host := rest }

/-- The state after reset: every lane zero, `PHASE` IDLE, `ERR` 0 and so `STATUS` 0, `ERRCMD` 0 (rule R701). The empty
response port and the empty host list are the model's choice (log 4, log 5). -/
def Obligations.ResetStateIsZeroAndIdle : Prop :=
  (∀ (i : Nat) (h : i < 25), State.reset.lanes[i] = 0) ∧ State.reset.phase = .idle ∧ State.reset.err = none ∧
  statusWord State.reset = 0 ∧ State.reset.errCmd = 0 ∧ State.reset.response = none ∧ State.reset.host = []

/-- "never acts without a command" (rule R704): with no input to take the engine waits, unchanged. That waiting is a
step at all is the model's choice (log 4). -/
def Obligations.EngineWaitsWithoutInput : Prop :=
  ∀ s : State, s.host = [] → step s = .next s

/-- A step stops on no input that is framed as rule R303 says, and what is left stays so framed (rules R306, R606: "The
decoder is total", "Nothing else fails"). -/
def Obligations.StepNeverStopsOnFramedInput : Prop :=
  ∀ s : State, Framed s → ∃ t, step s = .next t ∧ Framed t

/-- A step stops only in one way: a legal command in range was handed a payload of another length than its word states,
which rule R303 says cannot be expressed (log 2). -/
def Obligations.StepStopsOnlyOnAMisframedPayload : Prop :=
  (∀ (s : State) (r : Refusal), step s ≠ .refused r) ∧
  ∀ (s : State) (f : Fault), step s = .fault f →
    ∃ w p rest i, s.host = .command w p :: rest ∧ decode w = .ok i ∧ i.wellFormed = true ∧
      legalIn i s.phase = true ∧ p.length ≠ i.inBytes

/-! ### Exceptions (file 60) -/

/-- "exactly one exception is reported, the first in this order": IllegalCommand, PhaseError, OperandRange,
InvalidLength; StreamFailure is raised by `FAIL` after its phase check (rules R306, R608). -/
def Obligations.ResponseCodeFollowsTheCheckOrder : Prop :=
  ∀ (s t : State) (w : Word) (p : List Byte) (rest : List HostInput),
    s.host = .command w p :: rest → s.phase ≠ .fault → step s = .next t →
    (t.response = some (.raised .illegalCommand) ↔ ∃ r, decode w = .error r) ∧
    ∀ i, decode w = .ok i →
      (t.response = some (.raised .phaseError) ↔ legalIn i s.phase = false) ∧
      (t.response = some (.raised .operandRange) ↔ legalIn i s.phase = true ∧ i.inRange = false) ∧
      (t.response = some (.raised .invalidLength) ↔
        legalIn i s.phase = true ∧ i.inRange = true ∧ i.wholeLanes = false) ∧
      (t.response = some (.raised .streamFailure) ↔ legalIn i s.phase = true ∧ ∃ code, i = .fail code)

/-- The phase table: outside `FAULT`, PhaseError is raised exactly by the commands of the three groups in the phases shown,
whatever their operand (rule R604). -/
def Obligations.PhaseErrorTable : Prop :=
  ∀ (s : State) (n : Imm),
    (s.phase = .absorb ∨ s.phase = .squeeze →
      ∀ i ∈ [Instr.ldst n, .rdst n, .theta, .rho, .pi, .chi, .iota n, .round n, .permute n, .init],
        exec i s = .next (s.trapEntry .phaseError (encode i))) ∧
    (s.phase = .idle ∨ s.phase = .squeeze →
      ∀ i ∈ [Instr.absorb n, .fail n], exec i s = .next (s.trapEntry .phaseError (encode i))) ∧
    (s.phase = .idle ∨ s.phase = .absorb →
      exec (.squeeze n) s = .next (s.trapEntry .phaseError (encode (.squeeze n)))) ∧
    ∀ (i : Instr) (t : State), exec i s = .next t → t.response = some (.raised .phaseError) → s.phase ≠ .fault →
      (s.phase ≠ .idle ∧ i ∈ [Instr.ldst i.operand, .rdst i.operand, .theta, .rho, .pi, .chi, .iota i.operand,
        .round i.operand, .permute i.operand, .init]) ∨
      (s.phase ≠ .absorb ∧ i ∈ [Instr.absorb i.operand, .fail i.operand]) ∨
      (s.phase ≠ .squeeze ∧ i = .squeeze i.operand)

/-- OperandRange is raised "when `imm24` is larger than the command allows"; `SQUEEZE`, `RDRCB` and `FAIL` accept every
operand (rules R600, R605). -/
def Obligations.OperandRangeTable : Prop :=
  ∀ (s : State) (n : Imm),
    (s.phase = .idle →
      (n.toNat > 200 → ∀ i ∈ [Instr.ldst n, .rdst n], exec i s = .next (s.trapEntry .operandRange (encode i))) ∧
      (n.toNat > 23 → ∀ i ∈ [Instr.iota n, .round n], exec i s = .next (s.trapEntry .operandRange (encode i))) ∧
      (n.toNat > 24 → exec (.permute n) s = .next (s.trapEntry .operandRange (encode (.permute n))))) ∧
    (s.phase ≠ .fault →
      (n.toNat > 24 → exec (.rdrho n) s = .next (s.trapEntry .operandRange (encode (.rdrho n)))) ∧
      (n.toNat > 23 → exec (.rdrc n) s = .next (s.trapEntry .operandRange (encode (.rdrc n)))) ∧
      (n.toNat > 167 → exec (.pad n) s = .next (s.trapEntry .operandRange (encode (.pad n))))) ∧
    (s.phase = .absorb → n.toNat > 168 →
      exec (.absorb n) s = .next (s.trapEntry .operandRange (encode (.absorb n)))) ∧
    ∀ i ∈ [Instr.squeeze n, .rdrcb n, .fail n], ∀ t, exec i s = .next t → t.response ≠ some (.raised .operandRange)

/-- "Only the raw codec commands `LDST` and `RDST` can raise it": InvalidLength on a length in range that is no whole number
of lanes, and from no other command whatever its operand (rule R601). -/
def Obligations.InvalidLengthOnlyFromTheRawCodec : Prop :=
  (∀ (s : State) (n : Imm), s.phase = .idle → n.toNat ≤ 200 → n.toNat % 8 ≠ 0 →
    ∀ i ∈ [Instr.ldst n, .rdst n], exec i s = .next (s.trapEntry .invalidLength (encode i))) ∧
  ∀ (s t : State) (i : Instr), exec i s = .next t → t.response = some (.raised .invalidLength) →
    ∃ n : Imm, (i = .ldst n ∨ i = .rdst n) ∧ n.toNat ≤ 200 ∧ n.toNat % 8 ≠ 0

/-- Trap entry: whatever exception a command raises outside `FAULT`, the code and the whole word are latched, all lanes are
zero, the phase is `FAULT`, the response is the code with no output, and the command has no other effect (rule R609). That
the pair is then gone, its payload with it, is the model's choice (log 3, decision D30). -/
def Obligations.TrapEntryIsPrecise : Prop :=
  ∀ (s t : State) (w : Word) (p : List Byte) (rest : List HostInput) (e : Exc),
    s.host = .command w p :: rest → s.phase ≠ .fault → step s = .next t → t.response = some (.raised e) →
    t = { lanes := Vector.replicate 25 0, phase := .fault, err := some e, errCmd := w, response := some (.raised e),
          host := rest }

/-- In `FAULT` every word but those of `RDSR` and `CLRF` is refused: it gets a response code, IllegalCommand or PhaseError,
and changes nothing else, so the first fault is never overwritten (rule R610). That the pair is then gone, its payload with
it, is the model's choice (log 3, decision D30). -/
def Obligations.FaultPhaseRefusesEveryOtherWord : Prop :=
  ∀ (s : State) (w : Word) (p : List Byte) (rest : List HostInput),
    s.host = .command w p :: rest → s.phase = .fault → w ≠ 0x70000000 → w ≠ 0x71000000 →
    ((∃ r, decode w = .error r) →
      step s = .next { s with response := some (.raised .illegalCommand), host := rest }) ∧
    ((∃ i, decode w = .ok i) → step s = .next { s with response := some (.raised .phaseError), host := rest })

/-- `CLRF` "is the only command that leaves `FAULT`; the only other way out is reset" (rule R501). -/
def Obligations.OnlyClrfOrResetLeavesFault : Prop :=
  ∀ s t : State, s.phase = .fault → step s = .next t → t.phase ≠ .fault →
    ∃ rest, s.host = .reset :: rest ∨ ∃ p, s.host = .command 0x71000000 p :: rest

/-- After `CLRF` in `FAULT` "the engine is in exactly the state that follows reset" (rule R611). -/
def Obligations.ClrfInFaultGivesTheResetState : Prop :=
  ∀ s : State, s.phase = .fault → s.offered = [] →
    exec .clrf s = .next { State.reset with response := some (.ok []), host := s.host }

/-- Outside `FAULT`, `CLRF` is "a command without effect" that answers `OK` (rule R501). -/
def Obligations.ClrfOutsideFaultChangesNothing : Prop :=
  ∀ s : State, s.phase ≠ .fault → s.offered = [] → exec .clrf s = .next { s with response := some (.ok []) }

/-! ### Whole-machine rules -/

/-- Every step keeps a consistent state consistent: `ERR != 0` if and only if `PHASE = FAULT`, `ERRCMD` zero when `ERR = 0`,
lanes zero in `FAULT`, `FAULT` after every response that is not `OK`, and the latched code is one the latched word raises
(rules R105, R106, R600, R609, R610, R707). -/
def Obligations.StepKeepsConsistent : Prop :=
  ∀ s t : State, Consistent s → step s = .next t → Consistent t

/-- The reset state is consistent. -/
def Obligations.ResetStateIsConsistent : Prop := Consistent State.reset

/-- These are all the transitions of `PHASE` (rule R470). -/
def Obligations.PhaseChangesFollowTheLifecycle : Prop :=
  ∀ s t : State, step s = .next t → t.phase ≠ s.phase →
    (∃ rest, s.host = .reset :: rest ∧ t.phase = .idle) ∨
    ∃ w p rest, s.host = .command w p :: rest ∧
      (s.phase = .idle ∧ decode w = .ok .init ∧ t.phase = .absorb ∨
       s.phase = .absorb ∧ (∃ len : Imm, len.toNat < 168 ∧ decode w = .ok (.absorb len)) ∧ t.phase = .squeeze ∨
       s.phase = .squeeze ∧ (∃ len, decode w = .ok (.squeeze len)) ∧ t.phase = .idle ∨
       s.phase ≠ .fault ∧ (∃ e, t.response = some (.raised e)) ∧ t.phase = .fault ∨
       s.phase = .fault ∧ decode w = .ok .clrf ∧ t.phase = .idle)

/-- "From `INIT` to the end of `SQUEEZE` the host cannot read or write a lane directly" (rule R111): what any command other
than `SQUEEZE` itself leaves outside the lanes, its response included, does not depend on the lanes of a digest in progress. -/
def Obligations.DigestInProgressIsUnobservable : Prop :=
  ∀ (s t : State) (L : Lanes) (i : Instr),
    s.phase = .absorb ∨ (s.phase = .squeeze ∧ ∀ len, i ≠ .squeeze len) → exec i s = .next t →
    ∃ L', exec i { s with lanes := L } = .next { t with lanes := L' }

/-- "Capacity lanes are ... never read by squeezing directly" (rule R476): one block of output is the same for all contents
of the capacity lanes. -/
def Obligations.OneBlockOfOutputReadsNoCapacityLane : Prop :=
  ∀ (s : State) (L : Lanes) (len : Imm), s.phase = .squeeze → len.toNat ≤ 168 →
    (∀ (j : Nat) (h : j < 21), s.lanes[j] = L[j]) →
    exec (.squeeze len) s = exec (.squeeze len) { s with lanes := L }

/-- A command that answers `OK` gives exactly as many output bytes as its word states (rules R303, R304, R305). -/
def Obligations.OutputHasTheStatedLength : Prop :=
  ∀ (s t : State) (i : Instr) (out : List Byte), exec i s = .next t → t.response = some (.ok out) →
    out.length =
      match i with
      | .rdst len => len.toNat
      | .squeeze len => len.toNat
      | .rdrho _ => 1
      | .rdrcb _ => 1
      | .rdrc _ => 8
      | .rdsr => 8
      | .pad _ => 168
      | _ => 0

/-- The read commands and `PAD` "change no state when they complete without raising; issuing one twice returns the same
bytes twice" (rule R206). -/
def Obligations.PureCommandsChangeOnlyTheResponse : Prop :=
  ∀ (s t : State) (n : Imm) (out : List Byte), ∀ i ∈ [Instr.rdst n, .rdrho n, .rdrcb n, .rdrc n, .rdsr, .pad n],
    exec i s = .next t → t.response = some (.ok out) →
    t = { s with response := some (.ok out) } ∧ exec i t = .next t

/-! ### The lane codec (file 40) -/

/-- `lanesFromBytes` has no value on a length that is no multiple of 8, and else one lane per 8-byte group, its first byte
the least significant; the `j`-th lane of a result written to the state goes to lane index `j` (rule R400). -/
def Obligations.LanesFromBytesIsLittleEndian : Prop :=
  (∀ (S : Lanes) (L : List Lane) (j : Nat) (h : j < 25),
    (writeLanes S L)[j] = if j < L.length then L.getD j 0 else S[j]) ∧
  ∀ s : List Byte,
    (s.length % 8 ≠ 0 → lanesFromBytes s = none) ∧
    (s.length % 8 = 0 → ∃ L, lanesFromBytes s = some L ∧ L.length = s.length / 8 ∧
      ∀ j < s.length / 8, (L.getD j 0).toNat =
        (s.getD (8 * j) 0).toNat + 2 ^ 8 * (s.getD (8 * j + 1) 0).toNat + 2 ^ 16 * (s.getD (8 * j + 2) 0).toNat
          + 2 ^ 24 * (s.getD (8 * j + 3) 0).toNat + 2 ^ 32 * (s.getD (8 * j + 4) 0).toNat
          + 2 ^ 40 * (s.getD (8 * j + 5) 0).toNat + 2 ^ 48 * (s.getD (8 * j + 6) 0).toNat
          + 2 ^ 56 * (s.getD (8 * j + 7) 0).toNat)

/-- The codec's two functions are inverse to each other (rule R402). -/
def Obligations.CodecRoundTripIsLossless : Prop :=
  (∀ b : List Byte, b.length % 8 = 0 → (lanesFromBytes b).map bytesFromLanes = some b) ∧
  ∀ L : List Lane, lanesFromBytes (bytesFromLanes L) = some L

/-- `LDST` replaces the first `LEN` bytes of the state byte view by its payload, leaves all others, and changes nothing else
(rules R403, R203). -/
def Obligations.LdstReplacesTheFirstBytes : Prop :=
  ∀ (s : State) (len : Imm), s.phase = .idle → len.toNat ≤ 200 → len.toNat % 8 = 0 → s.offered.length = len.toNat →
    ∃ S : Lanes, exec (.ldst len) s = .next { s with lanes := S, response := some (.ok []) } ∧
      (∀ n < 200, (stateView S).getD n 0 =
        if n < len.toNat then s.offered.getD n 0 else (stateView s.lanes).getD n 0) ∧
      S = memWrite s.lanes 0 s.offered

/-- `RDST` gives the first `LEN` bytes of the state byte view, byte `n` being byte `n mod 8` of lane `n div 8`, and changes
nothing (rules R404, R202). -/
def Obligations.RdstGivesTheFirstBytes : Prop :=
  ∀ (s : State) (len : Imm), s.phase = .idle → len.toNat ≤ 200 → len.toNat % 8 = 0 → s.offered = [] →
    ∃ out : List Byte, exec (.rdst len) s = .next { s with response := some (.ok out) } ∧
      out.length = len.toNat ∧ out = memRead s.lanes 0 len.toNat ∧
      ∀ (n : Nat) (h : n < len.toNat) (hn : n / 8 < 25),
        out.getD n 0 = (s.lanes[n / 8] >>> (8 * (n % 8))).setWidth 8

/-! ### The tables (files 41, 42) -/

/-- The offset of each lane, as the recurrence gives it (rule R411), pairwise distinct and below 64 (rule R412). -/
def Obligations.RotationOffsetsAreTheTable : Prop :=
  rhoTable.toList.map BitVec.toNat =
    [0, 1, 62, 28, 27, 36, 44, 6, 55, 20, 3, 10, 43, 25, 39, 41, 45, 15, 21, 8, 18, 2, 61, 56, 14] ∧
  rhoTable.toList.Nodup

/-- The recurrence itself: the `t`-th lane visited from (1,0) has offset `(t+1)(t+2)/2 mod 64`, and lane (0,0) offset 0
(rule R410). -/
def Obligations.RotationOffsetsFollowTheRecurrence : Prop :=
  rhoOffset 0 0 = 0 ∧
  ∀ t < 24,
    let p := (fun q : Nat × Nat => (q.2, (2 * q.1 + 3 * q.2) % 5))^[t] (1, 0)
    rhoOffset p.1 p.2 = (t + 1) * (t + 2) / 2 % 64

/-- `RDRHO #i` gives the offset of lane `i` as one byte and changes nothing (rules R413, R411). -/
def Obligations.RdrhoGivesTheOffset : Prop :=
  ∀ (s : State) (i : Imm), s.phase ≠ .fault → i.toNat ≤ 24 → s.offered = [] →
    ∃ b : Byte, exec (.rdrho i) s = .next { s with response := some (.ok [b]) } ∧
      b.toNat =
        [0, 1, 62, 28, 27, 36, 44, 6, 55, 20, 3, 10, 43, 25, 39, 41, 45, 15, 21, 8, 18, 2, 61, 56, 14].getD i.toNat 0

/-- `RDRCB #t` gives bit 0 of the register after `t` iterations from 0x01, for every `t`, and changes nothing: the model
reduces `t` modulo 255 and "iterating `t` times without reducing give[s] the same bit" (rules R421, R425). -/
def Obligations.RdrcbGivesTheUnreducedBit : Prop :=
  ∀ (s : State) (t : Imm), s.phase ≠ .fault → s.offered = [] →
    exec (.rdrcb t) s =
      .next { s with response := some (.ok [if (lfsrStep^[t.toNat] 0x01).getLsbD 0 then 0x01 else 0x00]) }

/-- One iteration of the register (rule R420): the low 8 bits of `LF << 1`, XORed with 0x71 when bit 7 of `LF` was one. The
register returns to 0x01 after 255 iterations and not before (rule R421). -/
def Obligations.LfsrStepShiftsAndHasPeriod255 : Prop :=
  (∀ lf : BitVec 8, lfsrStep lf = if lf.toNat < 128 then BitVec.ofNat 8 (2 * lf.toNat)
    else BitVec.ofNat 8 (2 * lf.toNat) ^^^ 0x71) ∧
  lfsrStep^[255] 0x01 = 0x01 ∧ ∀ n, 0 < n → n < 255 → lfsrStep^[n] 0x01 ≠ 0x01

/-- Bit `z` of `RC(ir)` is one exactly when `z = 2^j - 1` for a `j` in 0 .. 6 with `rc(j + 7*ir) = 1` (rule R423). -/
def Obligations.RoundConstantSetsTheListedBits : Prop :=
  ∀ ir < 24, ∀ z < 64, (roundConstant ir).getLsbD z = true ↔ ∃ j ≤ 6, z = 2 ^ j - 1 ∧ rcBit (j + 7 * ir) = true

/-- `RDRC #ir` gives the eight bytes of the round constant in row `ir` of rule R424's table, least significant first, and
changes nothing; the row's third column lists the `j` with `rc(j + 7*ir) = 1` (rules R424, R426). -/
def Obligations.RdrcGivesTheTableConstant : Prop :=
  ∀ (s : State) (ir : Imm), s.phase ≠ .fault → ir.toNat ≤ 23 → s.offered = [] →
    ∃ row ∈ ([(0, 0x0000000000000001, [0]), (1, 0x0000000000008082, [1, 3, 4]),
        (2, 0x800000000000808A, [1, 2, 3, 4, 6]), (3, 0x8000000080008000, [4, 5, 6]),
        (4, 0x000000000000808B, [0, 1, 2, 3, 4]), (5, 0x0000000080000001, [0, 5]),
        (6, 0x8000000080008081, [0, 3, 4, 5, 6]), (7, 0x8000000000008009, [0, 2, 4, 6]),
        (8, 0x000000000000008A, [1, 2, 3]), (9, 0x0000000000000088, [2, 3]),
        (10, 0x0000000080008009, [0, 2, 4, 5]), (11, 0x000000008000000A, [1, 2, 5]),
        (12, 0x000000008000808B, [0, 1, 2, 3, 4, 5]), (13, 0x800000000000008B, [0, 1, 2, 3, 6]),
        (14, 0x8000000000008089, [0, 2, 3, 4, 6]), (15, 0x8000000000008003, [0, 1, 4, 6]),
        (16, 0x8000000000008002, [1, 4, 6]), (17, 0x8000000000000080, [3, 6]),
        (18, 0x000000000000800A, [1, 2, 4]), (19, 0x800000008000000A, [1, 2, 5, 6]),
        (20, 0x8000000080008081, [0, 3, 4, 5, 6]), (21, 0x8000000000008080, [3, 4, 6]),
        (22, 0x0000000080000001, [0, 5]), (23, 0x8000000080008008, [2, 4, 5, 6])] :
        List (Nat × Lane × List Nat)),
      row.1 = ir.toNat ∧
      exec (.rdrc ir) s = .next { s with response := some (.ok (laneBytes row.2.1)) } ∧
      ∀ j ≤ 6, rcBit (j + 7 * ir.toNat) = true ↔ j ∈ row.2.2

/-! ### The permutation (file 43) -/

/-- `THETA`: every lane is XORed with `C[x-1] xor ROTL64(C[x+1], 1)`, `C` being the column parities of the old state; nothing
else changes (rules R431, R440). -/
def Obligations.ThetaAddsTheColumnCorrections : Prop :=
  ∀ s : State, s.phase = .idle → s.offered = [] →
    ∃ S : Lanes, exec .theta s = .next { s with lanes := S, response := some (.ok []) } ∧
      ∀ x < 5, ∀ y < 5,
        let C : Nat → Lane := fun x => laneAt s.lanes x 0 ^^^ laneAt s.lanes x 1 ^^^ laneAt s.lanes x 2 ^^^
          laneAt s.lanes x 3 ^^^ laneAt s.lanes x 4
        laneAt S x y = laneAt s.lanes x y ^^^ (C ((x + 4) % 5) ^^^ (C ((x + 1) % 5)).rotateLeft 1)

/-- `RHO`: "bit `z` of `S[x,y]` becomes bit `(z + RHO[x,y]) mod 64` of `S'[x,y]`"; nothing else changes (rules R432,
R441). -/
def Obligations.RhoRotatesEveryLaneLeft : Prop :=
  ∀ s : State, s.phase = .idle → s.offered = [] →
    ∃ S : Lanes, exec .rho s = .next { s with lanes := S, response := some (.ok []) } ∧
      ∀ x < 5, ∀ y < 5, ∀ z < 64,
        (laneAt S x y).getLsbD ((z + rhoOffset x y) % 64) = (laneAt s.lanes x y).getLsbD z

/-- `PI`: the new lane at `(x, y)` is the old lane at `((x+3y) mod 5, x)`; nothing else changes (rules R433, R442). -/
def Obligations.PiRelocatesEveryLane : Prop :=
  ∀ s : State, s.phase = .idle → s.offered = [] →
    ∃ S : Lanes, exec .pi s = .next { s with lanes := S, response := some (.ok []) } ∧
      ∀ x < 5, ∀ y < 5, laneAt S x y = laneAt s.lanes ((x + 3 * y) % 5) x

/-- `CHI`: each bit of a lane is XORed with (not the bit to its right) and (the bit two to its right) in its row of the old
state; nothing else changes (rules R434, R443). -/
def Obligations.ChiCombinesEachRow : Prop :=
  ∀ s : State, s.phase = .idle → s.offered = [] →
    ∃ S : Lanes, exec .chi s = .next { s with lanes := S, response := some (.ok []) } ∧
      ∀ x < 5, ∀ y < 5, ∀ z < 64,
        (laneAt S x y).getLsbD z = ((laneAt s.lanes x y).getLsbD z ^^
          (!(laneAt s.lanes ((x + 1) % 5) y).getLsbD z && (laneAt s.lanes ((x + 2) % 5) y).getLsbD z))

/-- `IOTA #ir`: lane (0,0) is XORed with `RC(ir)`, "all other lanes pass through unchanged"; nothing else changes (rules R435,
R444). -/
def Obligations.IotaInjectsTheConstantIntoLaneZero : Prop :=
  ∀ (s : State) (ir : Imm), s.phase = .idle → ir.toNat ≤ 23 → s.offered = [] →
    ∃ S : Lanes, exec (.iota ir) s = .next { s with lanes := S, response := some (.ok []) } ∧
      laneAt S 0 0 = laneAt s.lanes 0 0 ^^^ roundConstant ir.toNat ∧
      ∀ x < 5, ∀ y < 5, (x, y) ≠ (0, 0) → laneAt S x y = laneAt s.lanes x y

/-- "`ROUND #ir` equals the sequence `THETA`, `RHO`, `PI`, `CHI`, `IOTA #ir`", and writes the lanes and the response only
(rules R436, R445). -/
def Obligations.RoundEqualsTheFiveSteps : Prop :=
  ∀ (s : State) (ir : Imm), s.phase = .idle → ir.toNat ≤ 23 → s.offered = [] →
    ∃ S : Lanes, exec (.round ir) s = .next { s with lanes := S, response := some (.ok []) } ∧
      execAll [.theta, .rho, .pi, .chi, .iota ir] s = .next { s with lanes := S, response := some (.ok []) }

/-- `PERMUTE #nr` applies rounds `24 - nr` .. 23 in ascending order: it leaves the lanes that `ROUND #(24-nr)` .. `ROUND #23`
leave, and writes the lanes and the response only (rules R437, R446). -/
def Obligations.PermuteEqualsTheLastRounds : Prop :=
  ∀ (s : State) (nr : Imm), s.phase = .idle → nr.toNat ≤ 24 → s.offered = [] →
    ∃ (S : Lanes) (t : State), exec (.permute nr) s = .next { s with lanes := S, response := some (.ok []) } ∧
      execAll ((List.range' (24 - nr.toNat) nr.toNat).map fun ir => .round (BitVec.ofNat 24 ir)) s = .next t ∧
      t.lanes = S ∧ (nr = 0 → S = s.lanes)

/-- Every step mapping, every round and every reduced or full permutation "is a bijection on the 1600-bit state space"
(rule R439). -/
def Obligations.PermutationIsABijection : Prop :=
  Function.Bijective theta ∧ Function.Bijective rho ∧ Function.Bijective pi ∧ Function.Bijective chi ∧
  (∀ ir, Function.Bijective fun S => iota S ir) ∧ (∀ ir, Function.Bijective fun S => rnd S ir) ∧
  (∀ nr ≤ 24, Function.Bijective fun S => permute S nr) ∧ Function.Bijective keccakF

/-! ### The padding encoder (file 44) -/

/-- `PAD #LEN` gives the chunk, 0x1F, zeros and 0x80, with 0x9F where the two marks share the last byte, 168 bytes in all,
and changes nothing (rules R460, R462). -/
def Obligations.PadGivesThePaddedBlock : Prop :=
  ∀ (s : State) (len : Imm), s.phase ≠ .fault → len.toNat ≤ 167 → s.offered.length = len.toNat →
    ∃ P : List Byte, exec (.pad len) s = .next { s with response := some (.ok P) } ∧ P.length = 168 ∧
      (∀ k < len.toNat, P.getD k 0 = s.offered.getD k 0) ∧
      (len.toNat ≤ 166 → P.getD len.toNat 0 = 0x1F ∧ (∀ k, len.toNat < k → k < 167 → P.getD k 0 = 0x00) ∧
        P.getD 167 0 = 0x80) ∧
      (len.toNat = 167 → P.getD 167 0 = 0x9F)

/-- "`pad` is injective ... distinct chunks give distinct blocks", and every block is 168 bytes, a whole number of lanes
(rule R461). -/
def Obligations.PadIsInjective : Prop :=
  (∀ c : List Byte, c.length < 168 → (pad c).length = 168) ∧
  ∀ c d : List Byte, c.length < 168 → d.length < 168 → pad c = pad d → c = d

/-! ### The sponge controller (file 45) -/

/-- `INIT` zeroes the lanes and makes the phase `ABSORB`; nothing else changes (rule R472). -/
def Obligations.InitStartsADigest : Prop :=
  ∀ s : State, s.phase = .idle → s.offered = [] →
    exec .init s = .next { s with lanes := Vector.replicate 25 0, phase := .absorb, response := some (.ok []) }

/-- "Byte `k` of `B` is XORed into byte `k` of the state byte view, for `0 <= k <= 167`", the capacity lanes are "not touched
by the XOR", and keccakF follows (rule R471). -/
def Obligations.AbsorbBlockXorsTheRateBytes : Prop :=
  ∀ (S : Lanes) (B : List Byte), B.length = 168 →
    ∃ X : Lanes, absorbBlock S B = permute X 24 ∧
      (∀ n < 200, (stateView X).getD n 0 =
        if n < 168 then (stateView S).getD n 0 ^^^ B.getD n 0 else (stateView S).getD n 0) ∧
      ∀ (i : Nat) (h : i < 25), 21 ≤ i → X[i] = S[i]

/-- `ABSORB #168` absorbs the payload as it is and stays in `ABSORB`; nothing else changes (rule R473). -/
def Obligations.AbsorbOfAFullBlockContinues : Prop :=
  ∀ (s : State) (len : Imm), s.phase = .absorb → len.toNat = 168 → s.offered.length = 168 →
    exec (.absorb len) s =
      .next { s with lanes := absorbBlock s.lanes s.offered, response := some (.ok []) }

/-- `ABSORB` of fewer than 168 bytes, 0 included, absorbs the padded chunk and makes the phase `SQUEEZE`; nothing else
changes (rules R473, R477). -/
def Obligations.AbsorbOfAShortChunkEndsAbsorption : Prop :=
  ∀ (s : State) (len : Imm), s.phase = .absorb → len.toNat < 168 → s.offered.length = len.toNat →
    exec (.absorb len) s =
      .next { s with lanes := absorbBlock s.lanes (pad s.offered), phase := .squeeze, response := some (.ok []) }

/-- `SQUEEZE #LEN` gives exactly `LEN` bytes, byte `k` being byte `k mod 168` of the state byte view of
`keccakF^(k div 168)` of the lanes at the start; the lanes are then zero and the phase `IDLE` (rule R474). -/
def Obligations.SqueezeGivesTheOutputBlocks : Prop :=
  ∀ (s : State) (len : Imm), s.phase = .squeeze → s.offered = [] →
    ∃ out : List Byte,
      exec (.squeeze len) s =
        .next { s with lanes := Vector.replicate 25 0, phase := .idle, response := some (.ok out) } ∧
      out.length = len.toNat ∧
      ∀ k < len.toNat, out.getD k 0 = (stateView (keccakF^[k / 168] s.lanes)).getD (k % 168) 0

/-- `FAIL #code` raises StreamFailure, always, and `ERRCMD` keeps the whole word with the host's code in [23:0] (rules R475,
R602). -/
def Obligations.FailRaisesStreamFailure : Prop :=
  ∀ (s : State) (code : Imm), s.phase = .absorb → s.offered = [] →
    ∃ w : Word, exec (.fail code) s = .next
        { s with lanes := Vector.replicate 25 0, phase := .fault, err := some .streamFailure, errCmd := w,
                 response := some (.raised .streamFailure) } ∧
      immField w = code ∧ opcodeField w = 0x63

/-! ### The digest function (file 46) -/

/-- The `DIGEST` sequence computes `digest(M, L)` from any state in `IDLE`, whatever the lanes held before, and "leaves the
engine in `IDLE` with all lanes zero" (rules R491, R493). `L` is an operand: a longer output cannot be expressed (item U13;
log 17). -/
def Obligations.DigestSequenceComputesTheDigest : Prop :=
  ∀ (s : State) (M : List Byte) (L : Imm) (rest : List HostInput),
    s.phase = .idle → s.host = digestCommands M L ++ rest →
    core.run (digestCommands M L).length s =
      .next { s with lanes := Vector.replicate 25 0, response := some (.ok (digest M L.toNat)), host := rest }

/-- "`digest(m, n1)` is a byte-wise prefix of `digest(m, n2)` whenever `n1 ≤ n2`", and has exactly the requested length (rule
R494). -/
def Obligations.LongerDigestExtendsTheShorter : Prop :=
  ∀ (M : List Byte) (n m : Nat), n ≤ m → digest M n <+: digest M m ∧ (digest M n).length = n

/-! ### The status registers (files 10, 47) -/

/-- `RDSR` gives `STATUS = PHASE + 16*ERR` and `ERRCMD`, each least significant byte first, in every phase, and changes
nothing (rules R105, R500). The numbers are those of the phases (rule R104) and of the exceptions (rule R600), which are the
response codes too, and an exception's response has no output (rule R304). -/
def Obligations.RdsrGivesStatusAndErrcmd : Prop :=
  (∀ s : State, s.offered = [] →
    exec .rdsr s = .next { s with response := some (.ok
      [BitVec.ofNat 8 (s.phase.code.toNat + 16 * (errCode s.err).toNat), 0, 0, 0,
       s.errCmd.extractLsb' 0 8, s.errCmd.extractLsb' 8 8, s.errCmd.extractLsb' 16 8, s.errCmd.extractLsb' 24 8]) }) ∧
  Phase.idle.code = 0 ∧ Phase.absorb.code = 1 ∧ Phase.squeeze.code = 2 ∧ Phase.fault.code = 3 ∧
  errCode none = 0 ∧ (∀ e, errCode (some e) = e.code) ∧
  Exc.invalidLength.code = 1 ∧ Exc.streamFailure.code = 2 ∧ Exc.illegalCommand.code = 3 ∧ Exc.phaseError.code = 4 ∧
  Exc.operandRange.code = 5 ∧
  (∀ out, (Response.ok out).code = 0 ∧ (Response.ok out).out = out) ∧
  ∀ e, (Response.raised e).code.toNat = e.code.toNat ∧ (Response.raised e).out = []

/-- In a consistent state the first byte of `RDSR` is one of the eight values rule R500 lists, each with its phase and
exception: "No other value can occur". -/
def Obligations.RdsrFirstByteIsOneOfEight : Prop :=
  ∀ (s t : State) (out : List Byte), Consistent s → exec .rdsr s = .next t → t.response = some (.ok out) →
    (s.phase, s.err, out.getD 0 0) ∈
      ([(.idle, none, 0x00), (.absorb, none, 0x01), (.squeeze, none, 0x02), (.fault, some .invalidLength, 0x13),
        (.fault, some .streamFailure, 0x23), (.fault, some .illegalCommand, 0x33), (.fault, some .phaseError, 0x43),
        (.fault, some .operandRange, 0x53)] : List (Phase × Option Exc × Byte))
end

