-- ==== Sys2Proof/Laws/Config.lean ====
section
/-! SUPPORT. The parameters as numerals, and the constraints rule R6 places on them. -/

namespace Sys2Proof.Config

@[simp] theorem logWidth_eq : logWidth = 6 := rfl
@[simp] theorem nLanes_eq : nLanes = 25 := rfl
@[simp] theorem stateBytes_eq : stateBytes = 200 := rfl
@[simp] theorem totalRounds_eq : totalRounds = 24 := rfl
@[simp] theorem rateBytes_eq : rateBytes = 168 := rfl
@[simp] theorem rateLanes_eq : rateLanes = 21 := rfl
@[simp] theorem capacityBytes_eq : capacityBytes = 32 := rfl
@[simp] theorem outLenMax_eq : outLenMax = 16777215 := rfl
@[simp] theorem lfsrPeriod_eq : lfsrPeriod = 255 := rfl

/-- "rate + capacity = 1600 exactly", in bytes (rule R6). -/
theorem rate_add_capacity : rateBytes + capacityBytes = stateBytes := rfl

/-- The rate lanes are "the first `rateBytes/8` lanes" (rule R102). -/
theorem rateLanes_eq_rateBytes_div : rateLanes = rateBytes / 8 := rfl

/-- "totalRounds = 12 + 2·log2(wordWidth)" (rule R6). -/
theorem totalRounds_eq_log : totalRounds = 12 + 2 * logWidth := rfl

end Sys2Proof.Config
end

