-- ==== Sys2Proof/Laws/Decode.lean ====
section
/-! SUPPORT. The two fields of a command word put together and taken apart (rule R300). -/

namespace Sys2Proof

@[simp] theorem opcodeField_wordOf (op : BitVec 8) (imm : Imm) : opcodeField (wordOf op imm) = op := by
  ext k hk
  rw [opcodeField, BitVec.getElem_extractLsb', wordOf, BitVec.getLsbD_append]
  simp [hk]

@[simp] theorem immField_wordOf (op : BitVec 8) (imm : Imm) : immField (wordOf op imm) = imm := by
  ext k hk
  rw [immField, BitVec.getElem_extractLsb', wordOf, BitVec.getLsbD_append]
  simp [hk]

/-- A command word is its two fields. -/
theorem wordOf_fields (w : Word) : wordOf (opcodeField w) (immField w) = w := by
  apply BitVec.eq_of_getLsbD_eq
  intro k hk
  rw [wordOf, BitVec.getLsbD_append]
  rcases Nat.lt_or_ge k 24 with h | h
  · simp [immField, h]
  · simp only [opcodeField, show ¬ k < 24 by omega, BitVec.getLsbD_extractLsb']
    simp [show k - 24 < 8 by omega, show 24 + (k - 24) = k by omega]

/-- Two words with the same fields are the same word. -/
theorem word_ext {v w : Word} (ho : opcodeField v = opcodeField w) (hi : immField v = immField w) : v = w := by
  rw [← wordOf_fields v, ← wordOf_fields w, ho, hi]

/-- A format N row reads its command exactly when the operand is 0 (rule R301). -/
theorem decodeFormatN_eq_ok {w : Word} {i j : Instr} : decodeFormatN w i = .ok j ↔ immField w = 0 ∧ i = j := by
  unfold decodeFormatN
  split <;> simp_all

end Sys2Proof
end

