-- ==== Sys2Proof/Laws/Operands.lean ====
section
/-! SUPPORT. Ranges, granularity and payload lengths of each command as numerals (rule R305). -/

namespace Sys2Proof

/-- Every operand is at most `OUTLEN_MAX`. -/
theorem Imm.toNat_le (n : Imm) : n.toNat ≤ 16777215 := by have := n.isLt; omega

theorem Instr.inRange_iff (i : Instr) : i.inRange = true ↔ i.operand.toNat ≤ i.operandMax := by
  simp [Instr.inRange]

@[simp] theorem Instr.inRange_ldst (n : Imm) : (Instr.ldst n).inRange = decide (n.toNat ≤ 200) := rfl
@[simp] theorem Instr.inRange_rdst (n : Imm) : (Instr.rdst n).inRange = decide (n.toNat ≤ 200) := rfl
@[simp] theorem Instr.inRange_rdrho (n : Imm) : (Instr.rdrho n).inRange = decide (n.toNat ≤ 24) := rfl
@[simp] theorem Instr.inRange_rdrc (n : Imm) : (Instr.rdrc n).inRange = decide (n.toNat ≤ 23) := rfl
@[simp] theorem Instr.inRange_iota (n : Imm) : (Instr.iota n).inRange = decide (n.toNat ≤ 23) := rfl
@[simp] theorem Instr.inRange_round (n : Imm) : (Instr.round n).inRange = decide (n.toNat ≤ 23) := rfl
@[simp] theorem Instr.inRange_permute (n : Imm) : (Instr.permute n).inRange = decide (n.toNat ≤ 24) := rfl
@[simp] theorem Instr.inRange_pad (n : Imm) : (Instr.pad n).inRange = decide (n.toNat ≤ 167) := rfl
@[simp] theorem Instr.inRange_absorb (n : Imm) : (Instr.absorb n).inRange = decide (n.toNat ≤ 168) := rfl
@[simp] theorem Instr.inRange_rdrcb (n : Imm) : (Instr.rdrcb n).inRange = true := (inRange_iff _).mpr n.toNat_le
@[simp] theorem Instr.inRange_squeeze (n : Imm) : (Instr.squeeze n).inRange = true := (inRange_iff _).mpr n.toNat_le
@[simp] theorem Instr.inRange_fail (n : Imm) : (Instr.fail n).inRange = true := (inRange_iff _).mpr n.toNat_le
@[simp] theorem Instr.inRange_theta : Instr.theta.inRange = true := rfl
@[simp] theorem Instr.inRange_rho : Instr.rho.inRange = true := rfl
@[simp] theorem Instr.inRange_pi : Instr.pi.inRange = true := rfl
@[simp] theorem Instr.inRange_chi : Instr.chi.inRange = true := rfl
@[simp] theorem Instr.inRange_init : Instr.init.inRange = true := rfl
@[simp] theorem Instr.inRange_rdsr : Instr.rdsr.inRange = true := rfl
@[simp] theorem Instr.inRange_clrf : Instr.clrf.inRange = true := rfl

/-- Only `LDST` and `RDST` have a granularity (rule R601). -/
theorem Instr.wholeLanes_eq_false {i : Instr} :
    i.wholeLanes = false ↔ ∃ n : Imm, (i = .ldst n ∨ i = .rdst n) ∧ n.toNat % 8 ≠ 0 := by
  cases i <;> simp [Instr.wholeLanes]

/-- A well-formed command passes the checks of range and granularity. -/
theorem Instr.wellFormed_iff {i : Instr} : i.wellFormed = true ↔ i.inRange = true ∧ i.wholeLanes = true := by
  simp [Instr.wellFormed]

end Sys2Proof
end

