-- ==== Sys2Proof/Laws/State.lean ====
section
/-! SUPPORT. One lemma per field per state operation, so that no later proof unfolds a record update. -/

namespace Sys2Proof.Machine

variable (s : State)

@[simp] theorem State.setLanes_lanes (S : Lanes) : (s.setLanes S).lanes = S := rfl
@[simp] theorem State.setLanes_phase (S : Lanes) : (s.setLanes S).phase = s.phase := rfl
@[simp] theorem State.setLanes_err (S : Lanes) : (s.setLanes S).err = s.err := rfl
@[simp] theorem State.setLanes_errCmd (S : Lanes) : (s.setLanes S).errCmd = s.errCmd := rfl
@[simp] theorem State.setLanes_response (S : Lanes) : (s.setLanes S).response = s.response := rfl
@[simp] theorem State.setLanes_host (S : Lanes) : (s.setLanes S).host = s.host := rfl

@[simp] theorem State.setPhase_lanes (p : Phase) : (s.setPhase p).lanes = s.lanes := rfl
@[simp] theorem State.setPhase_phase (p : Phase) : (s.setPhase p).phase = p := rfl
@[simp] theorem State.setPhase_err (p : Phase) : (s.setPhase p).err = s.err := rfl
@[simp] theorem State.setPhase_errCmd (p : Phase) : (s.setPhase p).errCmd = s.errCmd := rfl
@[simp] theorem State.setPhase_response (p : Phase) : (s.setPhase p).response = s.response := rfl
@[simp] theorem State.setPhase_host (p : Phase) : (s.setPhase p).host = s.host := rfl

@[simp] theorem State.complete_lanes (out : List Byte) : (s.complete out).lanes = s.lanes := rfl
@[simp] theorem State.complete_phase (out : List Byte) : (s.complete out).phase = s.phase := rfl
@[simp] theorem State.complete_err (out : List Byte) : (s.complete out).err = s.err := rfl
@[simp] theorem State.complete_errCmd (out : List Byte) : (s.complete out).errCmd = s.errCmd := rfl
@[simp] theorem State.complete_response (out : List Byte) : (s.complete out).response = some (.ok out) := rfl
@[simp] theorem State.complete_host (out : List Byte) : (s.complete out).host = s.host := rfl

@[simp] theorem State.answerRaised_lanes (e : Exc) : (s.answerRaised e).lanes = s.lanes := rfl
@[simp] theorem State.answerRaised_phase (e : Exc) : (s.answerRaised e).phase = s.phase := rfl
@[simp] theorem State.answerRaised_err (e : Exc) : (s.answerRaised e).err = s.err := rfl
@[simp] theorem State.answerRaised_errCmd (e : Exc) : (s.answerRaised e).errCmd = s.errCmd := rfl
@[simp] theorem State.answerRaised_response (e : Exc) : (s.answerRaised e).response = some (.raised e) := rfl
@[simp] theorem State.answerRaised_host (e : Exc) : (s.answerRaised e).host = s.host := rfl

@[simp] theorem State.trapEntry_lanes (e : Exc) (w : Word) : (s.trapEntry e w).lanes = zeroState := rfl
@[simp] theorem State.trapEntry_phase (e : Exc) (w : Word) : (s.trapEntry e w).phase = .fault := rfl
@[simp] theorem State.trapEntry_err (e : Exc) (w : Word) : (s.trapEntry e w).err = some e := rfl
@[simp] theorem State.trapEntry_errCmd (e : Exc) (w : Word) : (s.trapEntry e w).errCmd = w := rfl
@[simp] theorem State.trapEntry_response (e : Exc) (w : Word) : (s.trapEntry e w).response = some (.raised e) := rfl
@[simp] theorem State.trapEntry_host (e : Exc) (w : Word) : (s.trapEntry e w).host = s.host := rfl

@[simp] theorem State.clearFault_lanes : (s.clearFault).lanes = zeroState := rfl
@[simp] theorem State.clearFault_phase : (s.clearFault).phase = .idle := rfl
@[simp] theorem State.clearFault_err : (s.clearFault).err = none := rfl
@[simp] theorem State.clearFault_errCmd : (s.clearFault).errCmd = 0 := rfl
@[simp] theorem State.clearFault_response : (s.clearFault).response = s.response := rfl
@[simp] theorem State.clearFault_host : (s.clearFault).host = s.host := rfl

@[simp] theorem State.applyReset_lanes : (s.applyReset).lanes = zeroState := rfl
@[simp] theorem State.applyReset_phase : (s.applyReset).phase = .idle := rfl
@[simp] theorem State.applyReset_err : (s.applyReset).err = none := rfl
@[simp] theorem State.applyReset_errCmd : (s.applyReset).errCmd = 0 := rfl
@[simp] theorem State.applyReset_response : (s.applyReset).response = none := rfl
@[simp] theorem State.applyReset_host : (s.applyReset).host = s.host.tail := rfl

@[simp] theorem State.popHost_lanes : (s.popHost).lanes = s.lanes := rfl
@[simp] theorem State.popHost_phase : (s.popHost).phase = s.phase := rfl
@[simp] theorem State.popHost_err : (s.popHost).err = s.err := rfl
@[simp] theorem State.popHost_errCmd : (s.popHost).errCmd = s.errCmd := rfl
@[simp] theorem State.popHost_response : (s.popHost).response = s.response := rfl
@[simp] theorem State.popHost_host : (s.popHost).host = s.host.tail := rfl

/-- The operations as record updates, for statements that write the next state out. -/
theorem State.complete_eq (out : List Byte) : s.complete out = { s with response := some (.ok out) } := rfl
theorem State.setLanes_complete (S : Lanes) (out : List Byte) :
    (s.setLanes S).complete out = { s with lanes := S, response := some (.ok out) } := rfl
theorem State.setLanes_setPhase_complete (S : Lanes) (p : Phase) (out : List Byte) :
    ((s.setLanes S).setPhase p).complete out = { s with lanes := S, phase := p, response := some (.ok out) } := rfl
theorem State.trapEntry_eq (e : Exc) (w : Word) :
    s.trapEntry e w =
      { s with err := some e, errCmd := w, lanes := zeroState, phase := .fault, response := some (.raised e) } := rfl

/-- In `FAULT` an exception only sets the response code (rule R610). -/
theorem State.raise_of_fault (h : s.phase = .fault) (e : Exc) (w : Word) : s.raise e w = s.answerRaised e := by
  simp [State.raise, h]

/-- Outside `FAULT` an exception performs trap entry (rule R609). -/
theorem State.raise_of_not_fault (h : s.phase ≠ .fault) (e : Exc) (w : Word) : s.raise e w = s.trapEntry e w := by
  simp [State.raise, h]

@[simp] theorem State.raise_response (e : Exc) (w : Word) : (s.raise e w).response = some (.raised e) := by
  unfold State.raise; split <;> rfl

@[simp] theorem State.raise_phase (e : Exc) (w : Word) : (s.raise e w).phase = .fault := by
  unfold State.raise; split <;> simp_all

@[simp] theorem State.raise_host (e : Exc) (w : Word) : (s.raise e w).host = s.host := by
  unfold State.raise; split <;> rfl

/-- The payload held out is that of the command at the head of the host's inputs. -/
theorem State.offered_of_host {s : State} {w : Word} {p : List Byte} {rest : List HostInput}
    (h : s.host = .command w p :: rest) : s.offered = p := by
  simp [State.offered, h]

/-- What is held out depends on the host's inputs only. -/
theorem State.offered_congr {s t : State} (h : s.host = t.host) : s.offered = t.offered := by
  simp [State.offered, h]

/-- `State.reset` field by field (rule R112). -/
@[simp] theorem State.reset_lanes : State.reset.lanes = zeroState := rfl
@[simp] theorem State.reset_phase : State.reset.phase = .idle := rfl
@[simp] theorem State.reset_err : State.reset.err = none := rfl
@[simp] theorem State.reset_errCmd : State.reset.errCmd = 0 := rfl
@[simp] theorem State.reset_response : State.reset.response = none := rfl
@[simp] theorem State.reset_host : State.reset.host = [] := rfl

end Sys2Proof.Machine
end

