-- ==== Sys2Proof/Laws/Ops.lean ====
section
/-! SUPPORT. What the shared operations can do, said once: the checks of rule R306 and a command that goes through them. -/

namespace Sys2Proof.Machine

variable {i : Instr} {s t : State} {body : List Byte → State}

/-- `RDSR` and `CLRF` are the only commands legal in `FAULT` (rules R305, R610). -/
theorem legalIn_fault : legalIn i .fault = true ↔ i = .rdsr ∨ i = .clrf := by
  cases i <;> simp [legalIn]

/-- A phase check that fails is the first failure, whatever the operand (rule R608). -/
theorem firstFailure_of_illegal (h : legalIn i s.phase = false) : firstFailure i s = some .phaseError := by
  simp [firstFailure, h]

/-- In a legal phase an operand out of range is the first failure (rule R608). -/
theorem firstFailure_of_outOfRange (hl : legalIn i s.phase = true) (h : i.inRange = false) :
    firstFailure i s = some .operandRange := by
  simp [firstFailure, hl, h]

/-- With phase and range in order, only the granularity can fail (rule R608). -/
theorem firstFailure_of_partLane (hl : legalIn i s.phase = true) (hr : i.inRange = true) (h : i.wholeLanes = false) :
    firstFailure i s = some .invalidLength := by
  simp [firstFailure, hl, hr, h]

/-- A command passes its checks when its phase, its range and its granularity are in order (rule R306). -/
theorem firstFailure_eq_none :
    firstFailure i s = none ↔ legalIn i s.phase = true ∧ i.inRange = true ∧ i.wholeLanes = true := by
  unfold firstFailure
  cases legalIn i s.phase <;> cases i.inRange <;> cases i.wholeLanes <;> simp

/-- The checks raise three exceptions and no other (rule R600). -/
theorem firstFailure_eq_some {e : Exc} :
    firstFailure i s = some e ↔
      e = .phaseError ∧ legalIn i s.phase = false ∨
      e = .operandRange ∧ legalIn i s.phase = true ∧ i.inRange = false ∨
      e = .invalidLength ∧ legalIn i s.phase = true ∧ i.inRange = true ∧ i.wholeLanes = false := by
  unfold firstFailure
  cases legalIn i s.phase <;> cases i.inRange <;> cases i.wholeLanes <;> simp [eq_comm]

/-- A command whose checks fail raises, before any payload moves (rule R306). -/
theorem checked_of_failure {e : Exc} (h : firstFailure i s = some e) :
    checked i s body = .next (s.raise e (encode i)) := by
  simp [checked, h]

/-- A command that passes its checks and is handed the payload its word states runs its rule (rule R306). -/
theorem checked_of_none (h : firstFailure i s = none) (hp : s.offered.length = i.inBytes) :
    checked i s body = .next (body s.offered) := by
  simp [checked, h, hp]

/-- All a command can do when it gives a next state: raise the first failing check, or run its rule. -/
theorem checked_eq_next :
    checked i s body = .next t ↔
      (∃ e, firstFailure i s = some e ∧ t = s.raise e (encode i)) ∨
      (firstFailure i s = none ∧ s.offered.length = i.inBytes ∧ t = body s.offered) := by
  unfold checked
  cases h : firstFailure i s with
  | some e => simp [eq_comm]
  | none => by_cases hp : s.offered.length = i.inBytes <;> simp [hp, eq_comm]

/-- A command stops exactly when it passes its checks and its payload has another length than its word states. -/
theorem checked_eq_fault {f : Fault} :
    checked i s body = .fault f ↔
      firstFailure i s = none ∧ s.offered.length ≠ i.inBytes ∧ f = .payloadFraming := by
  unfold checked
  cases h : firstFailure i s with
  | some e => simp
  | none => by_cases hp : s.offered.length = i.inBytes <;> simp [hp, eq_comm]

/-- No meaning refuses. -/
theorem checked_ne_refused {r : Refusal} : checked i s body ≠ .refused r := by
  unfold checked
  split
  · simp
  · split <;> simp

end Sys2Proof.Machine
end

