-- ==== Sys2Proof/Laws/Lanes.lean ====
section
/-! SUPPORT. The lanes by coordinates, the lane codec and the state byte view. -/

namespace Sys2Proof.Machine

/-! ### Coordinates (rule R101) -/

/-- Every lane is the lane at its coordinates. -/
theorem laneIndex_of_index (i : Fin 25) : laneIndex (i.val % 5) (i.val / 5) = i := by
  have := i.isLt
  ext
  simp only [laneIndex]
  omega

/-- A lane read back from a state given by coordinates. -/
@[simp] theorem laneAt_lanesOf (f : Nat → Nat → Lane) (x y : Nat) : laneAt (lanesOf f) x y = f (x % 5) (y % 5) := by
  simp only [laneAt, lanesOf, laneIndex, Fin.getElem_fin, Vector.getElem_ofFn]
  congr 1 <;> omega

/-- Coordinates are taken modulo 5. -/
theorem laneAt_mod (S : Lanes) (x y : Nat) : laneAt S (x % 5) (y % 5) = laneAt S x y := by
  simp [laneAt, laneIndex]

/-- The lane with flat index `i` by its coordinates. -/
theorem getElem_eq_laneAt (S : Lanes) (i : Nat) (h : i < 25) : S[i] = laneAt S (i % 5) (i / 5) := by
  have := laneIndex_of_index ⟨i, h⟩
  simp only at this
  simp [laneAt, this]

/-- Two states with the same lanes at all coordinates are the same state. -/
theorem lanes_ext {S T : Lanes} (h : ∀ x < 5, ∀ y < 5, laneAt S x y = laneAt T x y) : S = T := by
  ext i hi
  rw [getElem_eq_laneAt S i hi, getElem_eq_laneAt T i hi, h _ (by omega) _ (by omega)]

@[simp] theorem getElem_zeroState (i : Nat) (h : i < 25) : zeroState[i] = 0 := by simp [zeroState]

@[simp] theorem laneAt_zeroState (x y : Nat) : laneAt zeroState x y = 0 := by simp [laneAt, zeroState]

/-! ### The codec (rules R400, R401) -/

theorem byteNat_lt (s : List Byte) (n : Nat) : byteNat s n < 2 ^ 8 := (s.getD n 0).isLt

theorem laneByte_toNat (v : Lane) (k : Nat) : (laneByte v k).toNat = v.toNat / 2 ^ (8 * k) % 2 ^ 8 := by
  simp [laneByte, Nat.shiftRight_eq_div_pow]

/-- The value of a lane made from bytes: the sum of rule R400 does not wrap. -/
theorem laneOfBytes_toNat (s : List Byte) (j : Nat) :
    (laneOfBytes s j).toNat =
      byteNat s (8 * j) + 2 ^ 8 * byteNat s (8 * j + 1) + 2 ^ 16 * byteNat s (8 * j + 2)
        + 2 ^ 24 * byteNat s (8 * j + 3) + 2 ^ 32 * byteNat s (8 * j + 4) + 2 ^ 40 * byteNat s (8 * j + 5)
        + 2 ^ 48 * byteNat s (8 * j + 6) + 2 ^ 56 * byteNat s (8 * j + 7) := by
  have h0 := byteNat_lt s (8 * j)
  have h1 := byteNat_lt s (8 * j + 1)
  have h2 := byteNat_lt s (8 * j + 2)
  have h3 := byteNat_lt s (8 * j + 3)
  have h4 := byteNat_lt s (8 * j + 4)
  have h5 := byteNat_lt s (8 * j + 5)
  have h6 := byteNat_lt s (8 * j + 6)
  have h7 := byteNat_lt s (8 * j + 7)
  rw [laneOfBytes, BitVec.toNat_ofNat]
  omega

/-- Byte `k` of lane `j` made from bytes is byte `8j + k` of the sequence (rules R200, R401). -/
theorem laneByte_laneOfBytes (s : List Byte) (j k : Nat) (hk : k < 8) :
    laneByte (laneOfBytes s j) k = s.getD (8 * j + k) 0 := by
  apply BitVec.eq_of_toNat_eq
  rw [laneByte_toNat, laneOfBytes_toNat]
  have h0 := byteNat_lt s (8 * j)
  have h1 := byteNat_lt s (8 * j + 1)
  have h2 := byteNat_lt s (8 * j + 2)
  have h3 := byteNat_lt s (8 * j + 3)
  have h4 := byteNat_lt s (8 * j + 4)
  have h5 := byteNat_lt s (8 * j + 5)
  have h6 := byteNat_lt s (8 * j + 6)
  have h7 := byteNat_lt s (8 * j + 7)
  have key : (s.getD (8 * j + k) 0).toNat = byteNat s (8 * j + k) := rfl
  rw [key]
  interval_cases k <;> simp only [Nat.add_zero, Nat.mul_zero, Nat.reduceMul, Nat.reducePow] <;> omega

/-- A lane is its eight bytes. -/
theorem lane_ext_bytes {v w : Lane} (h : ∀ k < 8, laneByte v k = laneByte w k) : v = w := by
  apply BitVec.eq_of_toNat_eq
  have hv := v.isLt
  have hw := w.isLt
  have e : ∀ k < 8, v.toNat / 2 ^ (8 * k) % 2 ^ 8 = w.toNat / 2 ^ (8 * k) % 2 ^ 8 := fun k hk => by
    rw [← laneByte_toNat, ← laneByte_toNat, h k hk]
  have e0 := e 0 (by omega); have e1 := e 1 (by omega); have e2 := e 2 (by omega); have e3 := e 3 (by omega)
  have e4 := e 4 (by omega); have e5 := e 5 (by omega); have e6 := e 6 (by omega); have e7 := e 7 (by omega)
  simp only [Nat.reduceMul, Nat.reducePow] at e0 e1 e2 e3 e4 e5 e6 e7
  omega

/-- Byte by byte, exclusive or of lanes is exclusive or of bytes. -/
theorem laneByte_xor (v w : Lane) (k : Nat) : laneByte (v ^^^ w) k = laneByte v k ^^^ laneByte w k := by
  simp [laneByte, BitVec.ushiftRight_xor_distrib]

@[simp] theorem laneBytes_length (v : Lane) : (laneBytes v).length = 8 := by simp [laneBytes]

@[simp] theorem laneGroups_length (s : List Byte) : (laneGroups s).length = s.length / 8 := by simp [laneGroups]

/-- Lane `j` of the codec's result (rule R400). -/
theorem laneGroups_getElem (s : List Byte) (j : Nat) (h : j < (laneGroups s).length) :
    (laneGroups s)[j] = laneOfBytes s j := by
  simp [laneGroups]

@[simp] theorem bytesFromLanes_nil : bytesFromLanes [] = [] := rfl

@[simp] theorem bytesFromLanes_cons (v : Lane) (L : List Lane) :
    bytesFromLanes (v :: L) = laneBytes v ++ bytesFromLanes L := rfl

@[simp] theorem bytesFromLanes_append (L M : List Lane) :
    bytesFromLanes (L ++ M) = bytesFromLanes L ++ bytesFromLanes M := by
  simp [bytesFromLanes]

/-- "the byte sequence `s` of `8m` bytes" (rule R401). -/
@[simp] theorem bytesFromLanes_length (L : List Lane) : (bytesFromLanes L).length = 8 * L.length := by
  induction L with
  | nil => rfl
  | cons v L ih => simp [ih]; omega

/-- `s[8j + k]` is byte `k` of lane `j` (rule R401). -/
theorem bytesFromLanes_getElem? (L : List Lane) (j k : Nat) (hk : k < 8) :
    (bytesFromLanes L)[8 * j + k]? = L[j]?.map (laneByte · k) := by
  induction L generalizing j with
  | nil => simp
  | cons v L ih =>
    cases j with
    | zero =>
      rw [bytesFromLanes_cons, List.getElem?_append_left (by simp; omega)]
      simp [laneBytes, hk]
    | succ j =>
      rw [bytesFromLanes_cons, List.getElem?_append_right (by simp; omega), laneBytes_length,
        show 8 * (j + 1) + k - 8 = 8 * j + k by omega, ih]
      simp

/-- Byte `n` of a lane sequence's bytes is byte `n mod 8` of lane `n div 8` (rule R401). -/
theorem bytesFromLanes_getElem?_div (L : List Lane) (n : Nat) :
    (bytesFromLanes L)[n]? = L[n / 8]?.map (laneByte · (n % 8)) := by
  have h := bytesFromLanes_getElem? L (n / 8) (n % 8) (by omega)
  rwa [show 8 * (n / 8) + n % 8 = n by omega] at h

/-- The bytes of the first `m` lanes are the first `8m` bytes. -/
theorem bytesFromLanes_take (L : List Lane) (m : Nat) :
    bytesFromLanes (L.take m) = (bytesFromLanes L).take (8 * m) := by
  apply List.ext_getElem?
  intro n
  rw [bytesFromLanes_getElem?_div, List.getElem?_take, List.getElem?_take, bytesFromLanes_getElem?_div]
  by_cases h : n < 8 * m
  · rw [if_pos h, if_pos (by omega)]
  · rw [if_neg h, if_neg (by omega)]; rfl

/-! ### The state byte view (rule R202) -/

@[simp] theorem stateView_length (S : Lanes) : (stateView S).length = 200 := by simp [stateView]

/-- Byte offset `n` of the view is byte `n mod 8` of lane `n div 8` (rule R202). -/
theorem stateView_getElem? (S : Lanes) (n : Nat) :
    (stateView S)[n]? = S[n / 8]?.map (laneByte · (n % 8)) := by
  rw [stateView, bytesFromLanes_getElem?_div]
  simp

/-- Reading the first `m` lanes as bytes is `MemRead(0, 8m)` (rules R9, R404, R474). -/
theorem bytesFromLanes_take_eq_memRead (S : Lanes) (m : Nat) :
    bytesFromLanes (S.toList.take m) = memRead S 0 (8 * m) := by
  simp [memRead, stateView, bytesFromLanes_take]

/-- What `writeLanes` leaves in each lane (rule R403). -/
theorem writeLanes_getElem (S : Lanes) (L : List Lane) (i : Nat) (h : i < 25) :
    (writeLanes S L)[i] = (L[i]?).getD S[i] := by
  simp [writeLanes]

end Sys2Proof.Machine
end

