-- ==== Sys2Proof/Laws/Permutation.lean ====
section
/-! SUPPORT. The step mappings lane by lane, the table of rotation offsets, and the rounds as a fold. -/

namespace Sys2Proof.Machine

/-- Rotation toward the most significant bit, bit by bit (rule R8). -/
theorem rotl64_getLsbD (v : Lane) (n k : Nat) (hn : n < 64) (hk : k < 64) :
    (rotl64 v n).getLsbD ((k + n) % 64) = v.getLsbD k := by
  rw [rotl64, BitVec.getLsbD_rotateLeft]
  simp only [Nat.mod_eq_of_lt hn]
  rcases Nat.lt_or_ge ((k + n) % 64) n with h | h
  · simp only [h, decide_true, cond_true]
    congr 1; omega
  · simp only [show ¬ (k + n) % 64 < n by omega, decide_false, cond_false, show (k + n) % 64 < 64 by omega, decide_true,
      Bool.true_and]
    congr 1; omega

@[simp] theorem rotl64_zero (v : Lane) : rotl64 v 0 = v := by
  ext k hk
  simp [rotl64, BitVec.getElem_rotateLeft]

/-- theta, lane by lane (rule R431). -/
theorem laneAt_theta (S : Lanes) {x y : Nat} (hx : x < 5) (hy : y < 5) :
    laneAt (theta S) x y = laneAt S x y ^^^ columnCorrection S x := by
  rw [theta, laneAt_lanesOf, Nat.mod_eq_of_lt hx, Nat.mod_eq_of_lt hy]

/-- rho, lane by lane (rule R432). -/
theorem laneAt_rho (S : Lanes) {x y : Nat} (hx : x < 5) (hy : y < 5) :
    laneAt (rho S) x y = rotl64 (laneAt S x y) (rhoOffset x y) := by
  rw [rho, laneAt_lanesOf, Nat.mod_eq_of_lt hx, Nat.mod_eq_of_lt hy]

/-- pi, lane by lane (rule R433). -/
theorem laneAt_pi (S : Lanes) {x y : Nat} (hx : x < 5) (hy : y < 5) :
    laneAt (pi S) x y = laneAt S ((x + 3 * y) % 5) x := by
  rw [pi, laneAt_lanesOf, Nat.mod_eq_of_lt hx, Nat.mod_eq_of_lt hy]

/-- chi, lane by lane (rule R434). -/
theorem laneAt_chi (S : Lanes) {x y : Nat} (hx : x < 5) (hy : y < 5) :
    laneAt (chi S) x y = laneAt S x y ^^^ (~~~(laneAt S ((x + 1) % 5) y) &&& laneAt S ((x + 2) % 5) y) := by
  rw [chi, laneAt_lanesOf, Nat.mod_eq_of_lt hx, Nat.mod_eq_of_lt hy]

/-- iota at lane (0,0) (rule R435). -/
theorem iota_getElem_zero (S : Lanes) (ir : Nat) : (iota S ir)[0] = S[0] ^^^ roundConstant ir := by simp [iota]

/-- iota leaves every other lane (rule R435). -/
theorem iota_getElem_of_ne (S : Lanes) (ir i : Nat) (h : i < 25) (hi : i ≠ 0) : (iota S ir)[i] = S[i] := by
  simp [iota, hi.symm]

/-- The table as the recurrence of rule R410 fills it. -/
theorem rhoTable_toList :
    rhoTable.toList = [0, 1, 62, 28, 27, 36, 44, 6, 55, 20, 3, 10, 43, 25, 39, 41, 45, 15, 21, 8, 18, 2, 61, 56, 14] := by
  decide +kernel

/-- "a 5×5 matrix of integers in [0,64)" (rule R412). -/
theorem rhoOffset_lt (x y : Nat) : rhoOffset x y < 64 := (rhoTable[laneIndex x y]).isLt

/-- "(0,0) is always 0" (rule R412). -/
theorem rhoOffset_zero : rhoOffset 0 0 = 0 := by decide +kernel

/-- No rounds, no change (rule R437). -/
@[simp] theorem permute_zero (S : Lanes) : permute S 0 = S := rfl

/-- The first of `nr + 1` rounds has index `23 - nr` (rule R437). -/
theorem permute_succ (S : Lanes) {nr : Nat} (h : nr < 24) : permute S (nr + 1) = permute (rnd S (23 - nr)) nr := by
  simp only [permute, Config.totalRounds_eq, List.range'_succ, List.foldl_cons]
  congr 2 <;> omega

end Sys2Proof.Machine
end

