-- ==== Sys2Proof/Laws/Sponge.lean ====
section
/-! SUPPORT. The padding encoder, the rate lanes, and the passes of `SQUEEZE`. -/

namespace Sys2Proof.Machine

/-- "The result is always exactly 168 bytes" (rule R461). -/
@[simp] theorem pad_length (c : List Byte) : (pad c).length = 168 := by simp [pad]

/-- Byte `k` of the padded block (rule R460). -/
theorem pad_getD (c : List Byte) {k : Nat} (h : k < 168) : (pad c).getD k 0 = padByte c k := by
  simp [pad, List.getD_eq_getElem?_getD, h]

/-- The exclusive or of a block reaches the rate lanes only (rules R471, R476). -/
theorem xorRate_getElem (S : Lanes) (B : List Byte) (i : Nat) (h : i < 25) :
    (xorRate S B)[i] = if i < 21 then S[i] ^^^ (laneGroups B).getD i 0 else S[i] := by
  simp [xorRate]

@[simp] theorem extractBlock_length (S : Lanes) : (extractBlock S).length = 168 := by simp [extractBlock]

/-- The extraction reads `MemRead(0, 168)` (rule R474). -/
theorem extractBlock_eq_memRead (S : Lanes) : extractBlock S = memRead S 0 168 := by
  rw [extractBlock, bytesFromLanes_take_eq_memRead, Config.rateLanes_eq]

/-- The extraction depends on the rate lanes only (rule R476). -/
theorem extractBlock_congr {S T : Lanes} (h : ∀ i (hi : i < 21), S[i] = T[i]) : extractBlock S = extractBlock T := by
  unfold extractBlock
  congr 1
  apply List.ext_getElem?
  intro n
  rw [List.getElem?_take, List.getElem?_take]
  by_cases hn : n < 21
  · simp [hn, h n hn, show n < 25 by omega]
  · simp [hn]

@[simp] theorem squeezePasses_length (n : Nat) (S : Lanes) : (squeezePasses n S).1.length = 168 * n := by
  induction n generalizing S with
  | zero => rfl
  | succ n ih => simp [squeezePasses, ih]; omega

/-- The passes produce at least the requested length (rule R474). -/
theorem le_passCount (len : Nat) : len ≤ 168 * passCount len := by
  simp only [passCount, Config.rateBytes_eq]
  omega

/-- More passes only add bytes at the end. -/
theorem squeezePasses_add (m n : Nat) (S : Lanes) :
    (squeezePasses (m + n) S).1 = (squeezePasses m S).1 ++ (squeezePasses n (keccakF^[m] S)).1 := by
  induction m generalizing S with
  | zero => simp [squeezePasses]
  | succ m ih => simp [Nat.succ_add, squeezePasses, ih]

/-- "Output block `q` ... is `bytesFromLanes` of the rate lanes of `keccakF^q(S0)`" (rule R474). -/
theorem squeezePasses_getElem? (n : Nat) (S : Lanes) {k : Nat} (h : k < 168 * n) :
    (squeezePasses n S).1[k]? = (extractBlock (keccakF^[k / 168] S))[k % 168]? := by
  induction n generalizing S k with
  | zero => omega
  | succ n ih =>
    simp only [squeezePasses]
    rcases Nat.lt_or_ge k 168 with hk | hk
    · rw [List.getElem?_append_left (by simpa using hk), Nat.div_eq_of_lt hk, Nat.mod_eq_of_lt hk]
      rfl
    · rw [List.getElem?_append_right (by simpa using hk), extractBlock_length, ih _ (by omega),
        show k / 168 = (k - 168) / 168 + 1 by omega, Function.iterate_succ_apply, show k % 168 = (k - 168) % 168 by omega]

end Sys2Proof.Machine
end

