-- ==== Sys2Proof/Laws/Exec.lean ====
section
/-! SUPPORT. Every meaning is the check sequence of rule R306 around its own effect; what the effects change and leave. -/

namespace Sys2Proof.Machine

/-- What a command does once it has passed its checks and `inp` has been taken (step 5 of rule R306). -/
def effect (i : Instr) (s : State) (inp : List Byte) : State :=
  match i with
  | .ldst _ => (s.setLanes (writeLanes s.lanes (laneGroups inp))).complete []
  | .rdst len => s.complete (bytesFromLanes (s.lanes.toList.take (len.toNat / 8)))
  | .rdrho i => s.complete [(rhoTable.getD i.toNat 0).setWidth 8]
  | .rdrcb t => s.complete [if rcBit t.toNat then 0x01 else 0x00]
  | .rdrc ir => s.complete (bytesFromLanes [roundConstant ir.toNat])
  | .theta => (s.setLanes (theta s.lanes)).complete []
  | .rho => (s.setLanes (rho s.lanes)).complete []
  | .pi => (s.setLanes (pi s.lanes)).complete []
  | .chi => (s.setLanes (chi s.lanes)).complete []
  | .iota ir => (s.setLanes (iota s.lanes ir.toNat)).complete []
  | .round ir => (s.setLanes (rnd s.lanes ir.toNat)).complete []
  | .permute nr => (s.setLanes (permute s.lanes nr.toNat)).complete []
  | .pad _ => s.complete (pad inp)
  | .init => ((s.setLanes zeroState).setPhase .absorb).complete []
  | .absorb len =>
    if len.toNat = Config.rateBytes then ((s.setLanes (absorbBlock s.lanes inp)).setPhase .absorb).complete []
    else ((s.setLanes (absorbBlock s.lanes (pad inp))).setPhase .squeeze).complete []
  | .squeeze len =>
    (((s.setLanes (squeezePasses (passCount len.toNat) s.lanes).2).setLanes zeroState).setPhase .idle).complete
      ((squeezePasses (passCount len.toNat) s.lanes).1.take len.toNat)
  | .fail code => s.raise .streamFailure (encode (.fail code))
  | .rdsr => s.complete (statusBytes s)
  | .clrf => (if s.phase = .fault then s.clearFault else s).complete []

variable {i : Instr} {s t : State}

/-- Every command goes through the checks of rule R306. -/
theorem exec_eq_checked (i : Instr) (s : State) : exec i s = checked i s (effect i s) := by cases i <;> rfl

/-- All a command can do when it gives a next state. -/
theorem exec_eq_next :
    exec i s = .next t ↔
      (∃ e, firstFailure i s = some e ∧ t = s.raise e (encode i)) ∨
      (firstFailure i s = none ∧ s.offered.length = i.inBytes ∧ t = effect i s s.offered) := by
  rw [exec_eq_checked, checked_eq_next]

/-- A command that passes its checks and is handed its payload has its effect. -/
theorem exec_of_none (h : firstFailure i s = none) (hp : s.offered.length = i.inBytes) :
    exec i s = .next (effect i s s.offered) := by
  rw [exec_eq_checked, checked_of_none h hp]

/-- The same with the three checks one by one, and the effect computed. -/
theorem exec_of_checks (h1 : legalIn i s.phase = true) (h2 : i.inRange = true) (h3 : i.wholeLanes = true)
    (hp : s.offered.length = i.inBytes) (he : effect i s s.offered = t) : exec i s = .next t := by
  rw [exec_of_none (firstFailure_eq_none.mpr ⟨h1, h2, h3⟩) hp, he]

/-- A command whose checks fail raises. -/
theorem exec_of_failure {e : Exc} (h : firstFailure i s = some e) : exec i s = .next (s.raise e (encode i)) := by
  rw [exec_eq_checked, checked_of_failure h]

/-- The host's inputs are not the command's to change. -/
@[simp] theorem effect_host (i : Instr) (s : State) (inp : List Byte) : (effect i s inp).host = s.host := by
  cases i <;> simp only [effect] <;> (try split) <;> simp

/-- A next state has the host's inputs of the state before. -/
theorem exec_host (h : exec i s = .next t) : t.host = s.host := by
  rcases exec_eq_next.mp h with ⟨e, -, rfl⟩ | ⟨-, -, rfl⟩ <;> simp

/-- `FAIL` raises StreamFailure (rule R475); every other command completes with `OK` (rule R606). -/
theorem effect_response (i : Instr) (s : State) (inp : List Byte) :
    (∃ code, i = .fail code ∧ (effect i s inp).response = some (.raised .streamFailure)) ∨
    ((∀ code, i ≠ .fail code) ∧ ∃ out, (effect i s inp).response = some (.ok out)) := by
  cases i <;> simp [effect]
  case absorb len => by_cases h : len.toNat = 168 <;> simp [h]

/-- Only `CLRF` in `FAULT` and `FAIL` write `ERR` and `ERRCMD` (rules R105, R106). -/
theorem effect_err_errCmd (inp : List Byte) (hc : i ≠ .clrf) (hf : ∀ code, i ≠ .fail code) :
    (effect i s inp).err = s.err ∧ (effect i s inp).errCmd = s.errCmd := by
  cases i <;> simp_all [effect]
  case absorb len => by_cases h : len.toNat = 168 <;> simp [h]

/-- The commands that write `PHASE` when they complete (rule R470). -/
theorem effect_phase (i : Instr) (s : State) (inp : List Byte) :
    (effect i s inp).phase =
      match i with
      | .init => .absorb
      | .absorb len => if len.toNat = 168 then .absorb else .squeeze
      | .squeeze _ => .idle
      | .fail _ => .fault
      | .clrf => if s.phase = .fault then .idle else s.phase
      | _ => s.phase := by
  cases i <;> simp [effect] <;> split <;> simp_all

end Sys2Proof.Machine
end

