-- ==== Sys2Proof/Laws/PerInstr.lean ====
section
/-! SUPPORT. Laws stated for every constructor of `Instr`. -/

/-- A command's word has the command's opcode in [31:24] and its operand in [23:0] (rule R300). -/
def Sys2Proof.Laws.Layout.Statement (i : Sys2Proof.Instr) : Prop :=
  Sys2Proof.opcodeField (Sys2Proof.encode i) = i.opcode ∧ Sys2Proof.immField (Sys2Proof.encode i) = i.operand

namespace Sys2Proof.Laws.Layout

theorem any (i : Instr) : Statement i := ⟨opcodeField_wordOf _ _, immField_wordOf _ _⟩

theorem ldst (len : Imm) : Statement (.ldst len) := any _
theorem rdst (len : Imm) : Statement (.rdst len) := any _
theorem rdrho (i : Imm) : Statement (.rdrho i) := any _
theorem rdrcb (t : Imm) : Statement (.rdrcb t) := any _
theorem rdrc (ir : Imm) : Statement (.rdrc ir) := any _
theorem theta : Statement .theta := any _
theorem rho : Statement .rho := any _
theorem pi : Statement .pi := any _
theorem chi : Statement .chi := any _
theorem iota (ir : Imm) : Statement (.iota ir) := any _
theorem round (ir : Imm) : Statement (.round ir) := any _
theorem permute (nr : Imm) : Statement (.permute nr) := any _
theorem pad (len : Imm) : Statement (.pad len) := any _
theorem init : Statement .init := any _
theorem absorb (len : Imm) : Statement (.absorb len) := any _
theorem squeeze (len : Imm) : Statement (.squeeze len) := any _
theorem fail (code : Imm) : Statement (.fail code) := any _
theorem rdsr : Statement .rdsr := any _
theorem clrf : Statement .clrf := any _

end Sys2Proof.Laws.Layout
end

