-- ==== Sys2Proof/Laws/Step.lean ====
section
/-! SUPPORT. What one step can do, by what the host sends. -/

namespace Sys2Proof.Machine

variable {s t : State} {w : Word} {p : List Byte} {rest : List HostInput} {i : Instr}

/-- With nothing to take the engine waits. -/
theorem step_of_nil (h : s.host = []) : step s = .next s := by simp [step, h]

/-- A reset event resets the engine (rule R700). -/
theorem step_of_reset (h : s.host = .reset :: rest) : step s = .next { State.reset with host := rest } := by
  simp [step, h, State.applyReset]

/-- A word that selects no row raises IllegalCommand (rule R306 step 1). -/
theorem step_of_illegal {r : Illegal} (h : s.host = .command w p :: rest) (hd : decode w = .error r) :
    step s = .next (s.raise .illegalCommand w).popHost := by
  simp [step, h, hd, illegalCommand, finish]

/-- A word that selects a row runs its command, and the input has then been taken. -/
theorem step_of_decode (h : s.host = .command w p :: rest) (hd : decode w = .ok i) : step s = finish (exec i s) := by
  simp [step, h, hd]

/-- All a step can do when it gives a next state. -/
theorem step_cases (h : step s = .next t) :
    (s.host = [] ∧ t = s) ∨
    (∃ rest, s.host = .reset :: rest ∧ t = { State.reset with host := rest }) ∨
    (∃ w p rest r, s.host = .command w p :: rest ∧ decode w = .error r ∧ t = (s.raise .illegalCommand w).popHost) ∨
    (∃ w p rest i u, s.host = .command w p :: rest ∧ decode w = .ok i ∧ exec i s = .next u ∧ t = u.popHost) := by
  match hh : s.host with
  | [] =>
    rw [step_of_nil hh] at h
    cases h
    exact .inl ⟨rfl, rfl⟩
  | .reset :: rest =>
    rw [step_of_reset hh] at h
    cases h
    exact .inr (.inl ⟨rest, rfl, rfl⟩)
  | .command w p :: rest =>
    cases hd : decode w with
    | error r =>
      rw [step_of_illegal hh hd] at h
      cases h
      exact .inr (.inr (.inl ⟨w, p, rest, r, rfl, hd, rfl⟩))
    | ok i =>
      rw [step_of_decode hh hd] at h
      cases hx : exec i s with
      | next u =>
        rw [hx] at h
        cases h
        exact .inr (.inr (.inr ⟨w, p, rest, i, u, rfl, hd, hx, rfl⟩))
      | fault f => rw [hx] at h; cases h
      | refused r => rw [hx] at h; cases h

end Sys2Proof.Machine
end

