-- ==== Sys2Proof/Tests/Slice0.lean ====
section
/-! SUPPORT. Checks of the model against words and vectors the spec prints (file 95 unless another rule is named), and for
every statement with hypotheses a concrete state and operands that meet them. -/

namespace Sys2Proof.Tests

open Machine

-- One proof at a time: checked side by side, the tests take a thread, and a stack, each.
set_option Elab.async false

/-! ### Helpers -/

/-- The engine in a phase other than `FAULT`, lanes zero, with the host's inputs to come. -/
def machineIn (p : Phase) (inputs : List HostInput) : State := { State.reset with phase := p, host := inputs }

/-- The engine in `FAULT` after vector V-X4: `FAIL #5` was raised. -/
def faulted (inputs : List HostInput) : State :=
  { State.reset with phase := .fault, err := some .streamFailure, errCmd := 0x63000005, host := inputs }

/-- The engine in a phase with a payload held out; the word beside it is not looked at by a meaning. -/
def offering (p : Phase) (payload : List Byte) : State := machineIn p [.command 0 payload]

/-- The bytes 00 01 02 .. of the test state `T`. -/
def countingBytes : List Byte := (List.range 200).map (BitVec.ofNat 8)

/-- The test state `T`: lane `i` holds the bytes `8i` .. `8i+7`. -/
def testLanes : Lanes := Vector.ofFn fun i => BitVec.ofNat 64 (0x0706050403020100 + 0x0808080808080808 * i.val)

/-- The engine in `IDLE` holding `T`. -/
def onTestLanes : State := { State.reset with lanes := testLanes }

/-- The engine in `IDLE` holding the state `S1`. -/
def onOne : State := { State.reset with lanes := zeroState.set 0 1 }

/-- The outcome is a next state of which `p` holds. -/
def holdsNext (o : Host.Outcome State Fault Refusal) (p : State → Bool) : Bool :=
  match o with
  | .next t => p t
  | .fault _ => false
  | .refused _ => false

theorem exists_of_holdsNext {o : Host.Outcome State Fault Refusal} {p : State → Bool} (h : holdsNext o p = true) :
    ∃ t, o = .next t ∧ p t = true := by
  unfold holdsNext at h
  split at h
  · exact ⟨_, rfl, h⟩
  · cases h
  · cases h

/-- The outcome is a next state that answers `OK` with these bytes. -/
def answers (o : Host.Outcome State Fault Refusal) (out : List Byte) : Bool :=
  holdsNext o fun t => t.response = some (.ok out)

/-- The outcome is a next state that answers `OK` without output and holds this lane. -/
def leavesLane (o : Host.Outcome State Fault Refusal) (i : Fin 25) (v : Lane) : Bool :=
  holdsNext o fun t => t.response = some (.ok []) && t.lanes[i] = v

/-- The outcome is trap entry with this exception and this `ERRCMD` (rule R609). -/
def traps (o : Host.Outcome State Fault Refusal) (e : Exc) (w : Word) : Bool :=
  holdsNext o fun t => t.response = some (.raised e) && t.phase = .fault && t.err = some e && t.errCmd = w &&
    t.lanes = zeroState

/-! ### WellFormed -/

/-- Range check: one above the largest operand of each ranged command (rule R605). -/
theorem test_wellFormed_refuses_range :
    [Instr.ldst 201, .ldst 208, .rdst 208, .rdrho 25, .rdrc 24, .iota 24, .round 24, .permute 25, .pad 168,
      .absorb 169].all (fun i => !i.wellFormed) = true := by
  decide

/-- Granularity check: a length in range that is no whole number of lanes (rule R601). -/
theorem test_wellFormed_refuses_part_lane :
    [Instr.ldst 12, .ldst 199, .rdst 7, .rdst 1].all (fun i => i.inRange && !i.wellFormed) = true := by
  decide

/-- The largest legal operands are well formed (rule R305). -/
theorem test_wellFormed_accepts_bounds :
    [Instr.ldst 200, .rdst 200, .ldst 0, .rdrho 24, .rdrcb 0xFFFFFF, .rdrc 23, .iota 23, .round 23, .permute 24, .pad 167,
      .absorb 168, .absorb 1, .squeeze 0xFFFFFF, .fail 0xFFFFFF].all Instr.wellFormed = true := by
  decide

/-! ### Decoding: one word per constructor, written out from rules R300 and R305 -/

theorem test_decode_lane_codec :
    decode 0b00010000_000000000000000011001000 = .ok (.ldst 200) ∧
    decode 0b00010001_000000000000000000010000 = .ok (.rdst 16) := by
  decide

theorem test_decode_tables :
    decode 0b00100000_000000000000000000011000 = .ok (.rdrho 24) ∧
    decode 0b00110000_111111111111111111111111 = .ok (.rdrcb 16777215) ∧
    decode 0b00110001_000000000000000000010111 = .ok (.rdrc 23) := by
  decide

theorem test_decode_permutation :
    decode 0b01000000_000000000000000000000000 = .ok .theta ∧
    decode 0b01000001_000000000000000000000000 = .ok .rho ∧
    decode 0b01000010_000000000000000000000000 = .ok .pi ∧
    decode 0b01000011_000000000000000000000000 = .ok .chi ∧
    decode 0b01000100_000000000000000000000001 = .ok (.iota 1) ∧
    decode 0b01000101_000000000000000000010111 = .ok (.round 23) ∧
    decode 0b01000110_000000000000000000011001 = .ok (.permute 25) := by
  decide

theorem test_decode_padding : decode 0b01010000_000000000000000010100111 = .ok (.pad 167) := by decide

theorem test_decode_sponge :
    decode 0b01100000_000000000000000000000000 = .ok .init ∧
    decode 0b01100001_000000000000000010101000 = .ok (.absorb 168) ∧
    decode 0b01100010_000000000000000000010000 = .ok (.squeeze 16) ∧
    decode 0b01100011_101010111100110111101111 = .ok (.fail 0xABCDEF) := by
  decide

theorem test_decode_system :
    decode 0b01110000_000000000000000000000000 = .ok .rdsr ∧
    decode 0b01110001_000000000000000000000000 = .ok .clrf := by
  decide

/-- V-E15 to V-E19 and V-E22. -/
theorem test_decode_refuses :
    decode 0x40000001 = .error (.nonZeroOperand 0x40 1) ∧ decode 0x00000000 = .error (.unassignedOpcode 0x00) ∧
    decode 0xFFFFFFFF = .error (.unassignedOpcode 0xFF) ∧ decode 0x47000000 = .error (.unassignedOpcode 0x47) ∧
    decode 0x12000000 = .error (.unassignedOpcode 0x12) ∧ decode 0x70000100 = .error (.nonZeroOperand 0x70 0x100) := by
  decide

/-- The word the table gives `INIT` runs as the first command after reset. -/
theorem test_withFetchWord_runs :
    holdsNext (step (State.reset.withFetchWord 32 0x60000000)) (fun t => t.phase = .absorb && t.host = []) = true := by
  decide

/-! ### One step of each command -/

/-- V-C5. -/
theorem test_ldst_loads_little_endian : leavesLane (exec (.ldst 200) (offering .idle countingBytes)) 5 0x2F2E2D2C2B2A2928 := by
  decide +kernel

/-- V-C3: a partial load leaves the other lanes. -/
theorem test_ldst_partial :
    leavesLane (exec (.ldst 8) { onTestLanes with host := [.command 0 (List.replicate 8 0xFF)] }) 0 0xFFFFFFFFFFFFFFFF ∧
    leavesLane (exec (.ldst 8) { onTestLanes with host := [.command 0 (List.replicate 8 0xFF)] }) 1 0x0F0E0D0C0B0A0908 := by
  decide +kernel

/-- V-C5. -/
theorem test_rdst_reads_back : answers (exec (.rdst 200) onTestLanes) countingBytes := by decide +kernel

/-- V-C6: RDST #7 is InvalidLength. -/
theorem test_rdst_part_lane : traps (exec (.rdst 7) onTestLanes) .invalidLength 0x11000007 := by decide +kernel

/-- V-R1. -/
theorem test_rdrho_offsets :
    answers (exec (.rdrho 24) State.reset) [0x0E] ∧ answers (exec (.rdrho 8) State.reset) [0x37] := by
  decide +kernel

/-- V-K3. -/
theorem test_rdrcb_reduces :
    answers (exec (.rdrcb 263) State.reset) [0x01] ∧ answers (exec (.rdrcb 254) State.reset) [0x00] := by
  decide +kernel

/-- V-K4. -/
theorem test_rdrc_low_byte_first :
    answers (exec (.rdrc 23) State.reset) [0x08, 0x80, 0x00, 0x80, 0x00, 0x00, 0x00, 0x80] := by
  decide +kernel

/-- V-P6: the parity of column `x+1` is the one that is rotated. -/
theorem test_theta_on_T : leavesLane (exec .theta onTestLanes) 24 0x979593919F9D9B99 := by decide +kernel

/-- V-P5: the first table. -/
theorem test_theta_on_one :
    leavesLane (exec .theta onOne) 4 2 ∧ leavesLane (exec .theta onOne) 1 1 ∧ leavesLane (exec .theta onOne) 3 0 := by
  decide +kernel

/-- V-P7. -/
theorem test_rho_on_T :
    leavesLane (exec .rho onTestLanes) 1 0x1E1C1A1816141210 ∧ leavesLane (exec .rho onTestLanes) 10 0xBAB2AAA29A928A82 := by
  decide +kernel

/-- V-P8: the lane at (2,1) becomes `T[10]`, the lane at (1,3) becomes `T[5]`. -/
theorem test_pi_on_T :
    leavesLane (exec .pi onTestLanes) 7 0x5756555453525150 ∧ leavesLane (exec .pi onTestLanes) 16 0x2F2E2D2C2B2A2928 := by
  decide +kernel

/-- V-P9. -/
theorem test_chi_on_T :
    leavesLane (exec .chi onTestLanes) 0 0x1716151413121110 ∧ leavesLane (exec .chi onTestLanes) 24 0xCFCECDCCCBCAC9C8 := by
  decide +kernel

/-- V-P11. -/
theorem test_iota_on_T :
    leavesLane (exec (.iota 23) onTestLanes) 0 0x8706050483028108 ∧
    leavesLane (exec (.iota 23) onTestLanes) 1 0x0F0E0D0C0B0A0908 := by
  decide +kernel

/-- V-P12, the first table. -/
theorem test_round_on_T :
    leavesLane (exec (.round 0) onTestLanes) 0 0x7E0C1AC8F6C4D241 ∧
    leavesLane (exec (.round 0) onTestLanes) 24 0xDBD5CDC6FFF3EBE2 := by
  decide +kernel

/-- V-P3: `PERMUTE #2` runs rounds 22 and 23. -/
theorem test_permute_two_rounds : leavesLane (exec (.permute 2) State.reset) 15 0x0800020010000400 := by decide +kernel

/-- V-PAD2. -/
theorem test_pad_short :
    answers (exec (.pad 3) (offering .idle [0x61, 0x62, 0x63]))
      ([0x61, 0x62, 0x63, 0x1F] ++ List.replicate 163 0x00 ++ [0x80]) := by
  decide +kernel

/-- V-PAD5. -/
theorem test_pad_one_byte :
    answers (exec (.pad 167) (offering .absorb (List.replicate 167 0xFF))) (List.replicate 167 0xFF ++ [0x9F]) := by
  decide +kernel

/-- Rule R472: the lanes become zero. -/
theorem test_init_zeroes :
    holdsNext (exec .init onTestLanes) (fun t => t.lanes = zeroState && t.phase = .absorb) = true := by
  decide +kernel

/-- V-S1: what the empty chunk leaves in the lanes "before the permutation". -/
theorem test_absorb_empty_chunk :
    xorRate zeroState (pad []) = (zeroState.set 0 0x1F).set 20 0x8000000000000000 ∧
    holdsNext (exec (.absorb 0) (offering .absorb [])) (fun t => t.phase = .squeeze) = true := by
  decide +kernel

/-- V-S3: a full block never ends absorption. -/
theorem test_absorb_full_block_phase :
    holdsNext (exec (.absorb 168) (offering .absorb (List.replicate 168 0))) (fun t => t.phase = .absorb) = true := by
  decide +kernel

/-- Rule R474: byte `n` of the first block is byte `n` of the state byte view, and the lanes end as zero. -/
theorem test_squeeze_first_block :
    answers (exec (.squeeze 16) { onTestLanes with phase := .squeeze }) (countingBytes.take 16) ∧
    holdsNext (exec (.squeeze 16) { onTestLanes with phase := .squeeze }) (fun t => t.phase = .idle && t.lanes = zeroState) := by
  decide +kernel

/-- V-D14: `SQUEEZE #0` gives nothing. -/
theorem test_squeeze_nothing : answers (exec (.squeeze 0) { onTestLanes with phase := .squeeze }) [] := by decide +kernel

/-- V-E20. -/
theorem test_fail_keeps_code : traps (exec (.fail 0xABCDEF) (machineIn .absorb [])) .streamFailure 0x63ABCDEF := by
  decide +kernel

/-- V-X4. -/
theorem test_rdsr_in_fault :
    answers (exec .rdsr (faulted [])) [0x23, 0x00, 0x00, 0x00, 0x05, 0x00, 0x00, 0x63] := by
  decide +kernel

/-- V-X2. -/
theorem test_rdsr_in_squeeze : answers (exec .rdsr (machineIn .squeeze [])) [0x02, 0, 0, 0, 0, 0, 0, 0] := by
  decide +kernel

/-- V-X9. -/
theorem test_clrf_clears :
    holdsNext (exec .clrf (faulted [])) (fun t => t.phase = .idle && t.err = none && t.errCmd = 0) = true := by
  decide +kernel

/-- V-X10. -/
theorem test_clrf_outside_fault : holdsNext (exec .clrf (machineIn .squeeze [])) (fun t => t.phase = .squeeze) = true := by
  decide +kernel

/-! ### The order of the checks and the refusal in `FAULT` -/

/-- V-E11 to V-E14. -/
theorem test_check_order :
    traps (exec (.ldst 12) (machineIn .idle [])) .invalidLength 0x1000000C ∧
    traps (exec (.ldst 208) (machineIn .idle [])) .operandRange 0x100000D0 ∧
    traps (exec (.ldst 204) (machineIn .idle [])) .operandRange 0x100000CC ∧
    traps (exec (.ldst 12) (machineIn .absorb [])) .phaseError 0x1000000C := by
  decide +kernel

/-- V-X8: the first fault is kept, and the input is taken. -/
theorem test_first_fault_is_kept :
    holdsNext (step (faulted [.command 0x46000019 []])) (fun t =>
      t = { faulted [] with response := some (.raised .phaseError) }) ∧
    holdsNext (step (faulted [.command 0xDEADBEEF []])) (fun t =>
      t = { faulted [] with response := some (.raised .illegalCommand) }) := by
  decide +kernel

/-- V-X5. -/
theorem test_illegal_word_traps :
    traps (step (machineIn .idle [.command 0xDEADBEEF []])) .illegalCommand 0xDEADBEEF := by
  decide +kernel

/-! ### Witnesses: for each statement with hypotheses, a state and operands that meet them -/

/-- For DecodedWordIsTheEncoding: the word of V-E2. -/
theorem test_witness_DecodedWordIsTheEncoding : decode 0x61000003 = .ok (.absorb 3) := by decide

/-- For IllegalWordsRaiseIllegalCommand, outside `FAULT` (V-X5) and in it (V-X8). -/
theorem test_witness_IllegalWordsRaiseIllegalCommand :
    decode 0xDEADBEEF = .error (.unassignedOpcode 0xDE) ∧ decode 0x71000001 = .error (.nonZeroOperand 0x71 1) ∧
    (machineIn .idle [.command 0xDEADBEEF []]).host = .command 0xDEADBEEF [] :: [] ∧
    (machineIn .idle [.command 0xDEADBEEF []]).phase ≠ .fault ∧
    (faulted [.command 0x71000001 []]).host = .command 0x71000001 [] :: [] ∧
    (faulted [.command 0x71000001 []]).phase = .fault := by
  decide

/-- For StepRunsTheDecodedCommand: `INIT` gives a next state. -/
theorem test_witness_StepRunsTheDecodedCommand_next :
    (machineIn .idle [.command 0x60000000 []]).host = .command 0x60000000 [] :: [] ∧ decode 0x60000000 = .ok .init ∧
    holdsNext (exec .init (machineIn .idle [.command 0x60000000 []])) (fun _ => true) = true := by
  decide

/-- For StepRunsTheDecodedCommand and StepStopsOnlyOnAMisframedPayload: `ABSORB #3` handed one byte stops. -/
theorem test_witness_StepRunsTheDecodedCommand_fault :
    decode 0x61000003 = .ok (.absorb 3) ∧
    exec (.absorb 3) (machineIn .absorb [.command 0x61000003 [0x61]]) = .fault .payloadFraming ∧
    step (machineIn .absorb [.command 0x61000003 [0x61]]) = .fault .payloadFraming :=
  ⟨by decide, rfl, rfl⟩

/-- For ResetEventGivesTheResetState and OnlyClrfOrResetLeavesFault: a reset event in `FAULT`. -/
theorem test_witness_ResetEventGivesTheResetState :
    (faulted [.reset, .command 0x70000000 []]).host = .reset :: [.command 0x70000000 []] ∧
    (faulted [.reset]).phase = .fault ∧ holdsNext (step (faulted [.reset])) (fun t => t.phase ≠ .fault) = true := by
  decide +kernel

/-- For EngineWaitsWithoutInput: no input in the middle of a digest. -/
theorem test_witness_EngineWaitsWithoutInput : (machineIn .squeeze []).host = [] := rfl

/-- For StepNeverStopsOnFramedInput: `ABSORB #1` with its byte, a reset, and a word with no row. -/
theorem test_witness_StepNeverStopsOnFramedInput :
    Framed (machineIn .absorb [.command 0x61000001 [0x00], .reset, .command 0x47000000 [0x00]]) := by
  have h1 : decode 0x61000001 = .ok (.absorb 1) := by decide
  have h2 : decode 0x47000000 = .error (.unassignedOpcode 0x47) := by decide
  intro h hm
  simp only [machineIn, List.mem_cons, List.not_mem_nil, or_false] at hm
  rcases hm with rfl | rfl | rfl
  · intro i hi _
    rw [h1] at hi
    cases hi
    rfl
  · trivial
  · intro i hi _
    rw [h2] at hi
    cases hi

/-- For ResponseCodeFollowsTheCheckOrder and TrapEntryIsPrecise: a step outside `FAULT` that answers each exception (V-E). -/
theorem test_witness_ResponseCodeFollowsTheCheckOrder :
    traps (step (machineIn .idle [.command 0x40000001 []])) .illegalCommand 0x40000001 ∧
    traps (step (machineIn .absorb [.command 0x1000000C []])) .phaseError 0x1000000C ∧
    traps (step (machineIn .idle [.command 0x100000CC []])) .operandRange 0x100000CC ∧
    traps (step (machineIn .idle [.command 0x1000000C []])) .invalidLength 0x1000000C ∧
    traps (step (machineIn .absorb [.command 0x63ABCDEF []])) .streamFailure 0x63ABCDEF ∧
    (decode 0x40000001 = .error (.nonZeroOperand 0x40 1) ∧ decode 0x1000000C = .ok (.ldst 12) ∧
      decode 0x100000CC = .ok (.ldst 204) ∧ decode 0x63ABCDEF = .ok (.fail 0xABCDEF)) := by
  decide +kernel

/-- For PhaseErrorTable: each phase a clause names, and next states that answer PhaseError for each group. -/
theorem test_witness_PhaseErrorTable :
    (machineIn .absorb []).phase = .absorb ∧ (machineIn .squeeze []).phase = .squeeze ∧
    (machineIn .idle []).phase = .idle ∧
    traps (exec .init (machineIn .absorb [])) .phaseError 0x60000000 ∧
    traps (exec (.absorb 0) (machineIn .squeeze [])) .phaseError 0x61000000 ∧
    traps (exec (.squeeze 0) (machineIn .idle [])) .phaseError 0x62000000 := by
  decide +kernel

/-- For OperandRangeTable: the first operand out of range of each clause (V-E7, V-E9, V-E24, V-R2). -/
theorem test_witness_OperandRangeTable :
    (machineIn .idle []).phase = .idle ∧ (machineIn .absorb []).phase = .absorb ∧ (machineIn .squeeze []).phase ≠ .fault ∧
    (201 : Imm).toNat > 200 ∧ (24 : Imm).toNat > 23 ∧ (25 : Imm).toNat > 24 ∧ (168 : Imm).toNat > 167 ∧
    (169 : Imm).toNat > 168 ∧ holdsNext (exec (.rdrcb 0xFFFFFF) (machineIn .idle [])) (fun _ => true) = true := by
  decide +kernel

/-- For InvalidLengthOnlyFromTheRawCodec: a length in range that is no multiple of 8 (V-E11). -/
theorem test_witness_InvalidLengthOnlyFromTheRawCodec :
    (machineIn .idle []).phase = .idle ∧ (199 : Imm).toNat ≤ 200 ∧ (199 : Imm).toNat % 8 ≠ 0 ∧
    traps (exec (.rdst 199) (machineIn .idle [])) .invalidLength 0x110000C7 := by
  decide +kernel

/-- For FaultPhaseRefusesEveryOtherWord: one word that decodes and one that does not (V-X8). -/
theorem test_witness_FaultPhaseRefusesEveryOtherWord :
    (faulted [.command 0x61000003 []]).phase = .fault ∧ decode 0x61000003 = .ok (.absorb 3) ∧
    (faulted [.command 0x70000001 []]).phase = .fault ∧ decode 0x70000001 = .error (.nonZeroOperand 0x70 1) ∧
    (0x70000001 : Word) ≠ 0x70000000 ∧ (0x61000003 : Word) ≠ 0x71000000 := by
  decide

/-- For OnlyClrfOrResetLeavesFault and PhaseChangesFollowTheLifecycle: `CLRF` leaves `FAULT` (V-X9). -/
theorem test_witness_OnlyClrfOrResetLeavesFault :
    (faulted [.command 0x71000000 []]).phase = .fault ∧
    holdsNext (step (faulted [.command 0x71000000 []])) (fun t => t.phase = .idle) = true := by
  decide +kernel

/-- For ClrfInFaultGivesTheResetState: a fault latched and nothing held out. -/
theorem test_witness_ClrfInFaultGivesTheResetState :
    (faulted [.command 0x71000000 []]).phase = .fault ∧ (faulted [.command 0x71000000 []]).offered = [] := by
  decide

/-- For ClrfOutsideFaultChangesNothing: in the middle of a digest (V-X10). -/
theorem test_witness_ClrfOutsideFaultChangesNothing :
    (machineIn .squeeze [.command 0x71000000 []]).phase ≠ .fault ∧
    (machineIn .squeeze [.command 0x71000000 []]).offered = [] := by
  decide

/-- For StepKeepsConsistent and RdsrFirstByteIsOneOfEight: the state in `FAULT` after V-X4 is consistent. -/
theorem test_witness_StepKeepsConsistent_fault (inputs : List HostInput) : Consistent (faulted inputs) where
  err_iff_fault := by simp [faulted]
  errCmd_zero := by simp [faulted]
  fault_lanes := fun _ => rfl
  raised_fault := fun _ h => by simp [faulted, State.reset] at h
  explained := fun e h => by
    have : e = .streamFailure := by simpa [faulted, eq_comm] using h
    subst this
    exact ⟨5, show decode 0x63000005 = .ok (.fail 5) by decide⟩

/-- The same for the phases without a fault. -/
theorem test_witness_StepKeepsConsistent_idle : Consistent (machineIn .absorb [.command 0x62000020 []]) where
  err_iff_fault := by simp [machineIn, State.reset]
  errCmd_zero := fun _ => rfl
  fault_lanes := fun _ => rfl
  raised_fault := fun _ h => by simp [machineIn, State.reset] at h
  explained := fun _ h => by simp [machineIn, State.reset] at h

/-- For StepKeepsConsistent: both states take a step. -/
theorem test_witness_StepKeepsConsistent_steps :
    holdsNext (step (faulted [.command 0x71000000 []])) (fun _ => true) = true ∧
    holdsNext (step (machineIn .absorb [.command 0x62000020 []])) (fun _ => true) = true ∧
    answers (exec .rdsr (faulted [])) [0x23, 0, 0, 0, 0x05, 0, 0, 0x63] := by
  decide +kernel

/-- For PhaseChangesFollowTheLifecycle: a step that changes the phase, one for each transition out of a phase. -/
theorem test_witness_PhaseChangesFollowTheLifecycle :
    holdsNext (step (machineIn .idle [.command 0x60000000 []])) (fun t => t.phase = .absorb) ∧
    holdsNext (step (machineIn .absorb [.command 0x610000A7 (List.replicate 167 0)])) (fun t => t.phase = .squeeze) ∧
    holdsNext (step (machineIn .squeeze [.command 0x62000000 []])) (fun t => t.phase = .idle) ∧
    holdsNext (step (machineIn .idle [.command 0x62000000 []])) (fun t => t.phase = .fault) ∧
    holdsNext (step (faulted [.command 0x71000000 []])) (fun t => t.phase = .idle) ∧
    holdsNext (step (machineIn .squeeze [.reset])) (fun t => t.phase = .idle) := by
  decide +kernel

/-- For DigestInProgressIsUnobservable: a command that completes, and one that raises, in each phase of a digest. -/
theorem test_witness_DigestInProgressIsUnobservable :
    (machineIn .absorb []).phase = .absorb ∧ (machineIn .squeeze []).phase = .squeeze ∧
    holdsNext (exec (.rdrho 2) (machineIn .absorb [])) (fun _ => true) ∧
    holdsNext (exec (.rdst 8) (machineIn .squeeze [])) (fun _ => true) ∧
    ∀ len, Instr.rdst 8 ≠ .squeeze len := by
  refine ⟨rfl, rfl, by decide +kernel, by decide +kernel, fun len h => by cases h⟩

/-- For OneBlockOfOutputReadsNoCapacityLane: two states that differ in lane 21, the first capacity lane, and one whole block. -/
theorem test_witness_OneBlockOfOutputReadsNoCapacityLane :
    (machineIn .squeeze []).phase = .squeeze ∧ (168 : Imm).toNat ≤ 168 ∧
    (∀ (j : Nat) (h : j < 21), (machineIn .squeeze []).lanes[j] = (zeroState.set 21 1)[j]) ∧
    (machineIn .squeeze []).lanes ≠ zeroState.set 21 1 := by
  decide +kernel

/-- For OutputHasTheStatedLength: a command with output and one without (V-R1, V-S3). -/
theorem test_witness_OutputHasTheStatedLength :
    answers (exec (.rdrho 1) State.reset) [0x01] ∧ answers (exec .init State.reset) [] ∧
    answers (exec (.rdst 0) State.reset) [] := by
  decide +kernel

/-- For PureCommandsChangeOnlyTheResponse: each command completes (V-P5 of part C). -/
theorem test_witness_PureCommandsChangeOnlyTheResponse :
    answers (exec (.rdst 0) State.reset) [] ∧ answers (exec (.rdrho 2) (machineIn .absorb [])) [0x3E] ∧
    answers (exec (.rdrcb 8) (machineIn .absorb [])) [0x01] ∧
    answers (exec (.rdrc 1) (machineIn .squeeze [])) [0x82, 0x80, 0, 0, 0, 0, 0, 0] ∧
    answers (exec .rdsr State.reset) [0, 0, 0, 0, 0, 0, 0, 0] ∧
    answers (exec (.pad 0) (machineIn .absorb [])) ([0x1F] ++ List.replicate 166 0 ++ [0x80]) := by
  decide +kernel

/-- For LanesFromBytesIsLittleEndian and CodecRoundTripIsLossless: lengths of both kinds (V-C1). -/
theorem test_witness_LanesFromBytesIsLittleEndian :
    lanesFromBytes [1, 2, 3, 4, 5, 6, 7, 8, 0x80, 0, 0, 0, 0, 0, 0, 0xFF] = some [0x0807060504030201, 0xFF00000000000080] ∧
    lanesFromBytes [1, 2, 3, 4, 5, 6, 7] = none := by
  decide +kernel

/-- For LdstReplacesTheFirstBytes: all 200 bytes, and none. -/
theorem test_witness_LdstReplacesTheFirstBytes :
    (offering .idle countingBytes).phase = .idle ∧ (200 : Imm).toNat ≤ 200 ∧ (200 : Imm).toNat % 8 = 0 ∧
    (offering .idle countingBytes).offered.length = (200 : Imm).toNat ∧
    (0 : Imm).toNat % 8 = 0 ∧ (offering .idle []).offered.length = (0 : Imm).toNat := by
  decide +kernel

/-- For the commands of the direct access group that take no payload, RDST, THETA, RHO, PI, CHI, IOTA, ROUND, PERMUTE and
INIT (RdstGivesTheFirstBytes, ThetaAddsTheColumnCorrections, RhoRotatesEveryLaneLeft, PiRelocatesEveryLane,
ChiCombinesEachRow, IotaInjectsTheConstantIntoLaneZero, RoundEqualsTheFiveSteps, PermuteEqualsTheLastRounds,
InitStartsADigest): a state with lanes that are not zero, and the largest and smallest operands. -/
theorem test_witness_direct_access :
    onTestLanes.phase = .idle ∧ onTestLanes.offered = [] ∧ onTestLanes.lanes ≠ zeroState ∧
    (200 : Imm).toNat ≤ 200 ∧ (200 : Imm).toNat % 8 = 0 ∧ (23 : Imm).toNat ≤ 23 ∧ (24 : Imm).toNat ≤ 24 ∧
    (0 : Imm).toNat ≤ 23 := by
  decide +kernel

/-- For RdrhoGivesTheOffset, RdrcbGivesTheUnreducedBit and RdrcGivesTheTableConstant: in a digest, at the largest operands. -/
theorem test_witness_tables :
    (machineIn .squeeze []).phase ≠ .fault ∧ (machineIn .squeeze []).offered = [] ∧ (24 : Imm).toNat ≤ 24 ∧
    (23 : Imm).toNat ≤ 23 := by
  decide

/-- For PadGivesThePaddedBlock and PadIsInjective: chunks of 166 and 167 bytes, where the two cases meet. -/
theorem test_witness_PadGivesThePaddedBlock :
    (offering .absorb (List.replicate 167 0xFF)).phase ≠ .fault ∧ (167 : Imm).toNat ≤ 167 ∧
    (offering .absorb (List.replicate 167 0xFF)).offered.length = (167 : Imm).toNat ∧
    (166 : Imm).toNat ≤ 166 ∧ (offering .absorb (List.replicate 166 0xFF)).offered.length = (166 : Imm).toNat ∧
    (offering .absorb (List.replicate 167 0xFF)).offered.length < 168 := by
  decide +kernel

/-- For AbsorbBlockXorsTheRateBytes and AbsorbOfAFullBlockContinues: a full block. -/
theorem test_witness_AbsorbOfAFullBlockContinues :
    (offering .absorb (List.replicate 168 0xA3)).phase = .absorb ∧ (168 : Imm).toNat = 168 ∧
    (offering .absorb (List.replicate 168 0xA3)).offered.length = 168 := by
  decide +kernel

/-- For AbsorbOfAShortChunkEndsAbsorption: the empty chunk and the longest short one. -/
theorem test_witness_AbsorbOfAShortChunkEndsAbsorption :
    (offering .absorb []).phase = .absorb ∧ (0 : Imm).toNat < 168 ∧
    (offering .absorb []).offered.length = (0 : Imm).toNat ∧ (167 : Imm).toNat < 168 ∧
    (offering .absorb (List.replicate 167 0)).offered.length = (167 : Imm).toNat := by
  decide +kernel

/-- For SqueezeGivesTheOutputBlocks: nothing held out in `SQUEEZE`, lanes not zero. -/
theorem test_witness_SqueezeGivesTheOutputBlocks :
    ({ onTestLanes with phase := .squeeze } : State).phase = .squeeze ∧
    ({ onTestLanes with phase := .squeeze } : State).offered = [] := by
  decide

/-- For FailRaisesStreamFailure. -/
theorem test_witness_FailRaisesStreamFailure :
    (machineIn .absorb [.command 0x63ABCDEF []]).phase = .absorb ∧
    (machineIn .absorb [.command 0x63ABCDEF []]).offered = [] := by
  decide

/-- For DigestSequenceComputesTheDigest: the sequence of rule R491 for a message of exactly one block, with another command
after it, from lanes that are not zero. -/
theorem test_witness_DigestSequenceComputesTheDigest :
    onTestLanes.phase = .idle ∧
    ({ onTestLanes with host := digestCommands [] 16 ++ [.reset] } : State).host = digestCommands [] 16 ++ [.reset] ∧
    digestCommands (List.replicate 168 0) 16 =
      [.command 0x60000000 [], .command 0x610000A8 (List.replicate 168 0), .command 0x61000000 [],
       .command 0x62000010 []] := by
  decide +kernel

/-- For LongerDigestExtendsTheShorter. -/
theorem test_witness_LongerDigestExtendsTheShorter : 16 ≤ 64 := by decide

/-- For RdsrGivesStatusAndErrcmd: in `FAULT`, where all fields are not zero. -/
theorem test_witness_RdsrGivesStatusAndErrcmd :
    (faulted [.command 0x70000000 []]).offered = [] ∧ (faulted [.command 0x70000000 []]).phase = .fault := by
  decide

end Sys2Proof.Tests
end

/-! The words that select no row of the opcode map, and what the engine does with one (rules R307, R603, R609, R610). -/

namespace Sys2Proof

/-- A format N row turns a word down exactly when the operand is not 0 (rules R301, R307). -/
theorem exists_decodeFormatN_eq_error {w : Word} {i : Instr} :
    (∃ r, decodeFormatN w i = .error r) ↔ immField w ≠ 0 := by
  unfold decodeFormatN
  split <;> simp_all

/-- The 19 opcodes of the map (rule R305). -/
def assignedOpcodes : List Nat :=
  [0x10, 0x11, 0x20, 0x30, 0x31, 0x40, 0x41, 0x42, 0x43, 0x44, 0x45, 0x46, 0x50, 0x60, 0x61, 0x62, 0x63, 0x70, 0x71]

/-- The opcodes of the commands without an operand (rules R301, R305). -/
def formatNOpcodes : List Nat := [0x40, 0x41, 0x42, 0x43, 0x60, 0x70, 0x71]

/-- The decoder turns down the unassigned opcodes and, under a format N opcode, every operand but 0 (rule R307). The split
is along the decoder's own arms: in each the opcode is known, and so is its place in the two lists. -/
theorem exists_decode_eq_error {w : Word} :
    (∃ r, decode w = .error r) ↔
      (opcodeField w).toNat ∉ assignedOpcodes ∨ (opcodeField w).toNat ∈ formatNOpcodes ∧ immField w ≠ 0 := by
  unfold decode
  split
  case h_20 =>
    have hu : (opcodeField w).toNat ∉ assignedOpcodes := by simp_all [assignedOpcodes]
    exact iff_of_true ⟨_, rfl⟩ (.inl hu)
  all_goals simp [assignedOpcodes, formatNOpcodes, exists_decodeFormatN_eq_error, *]

namespace Machine

variable {s : State} {w : Word} {p : List Byte} {rest : List HostInput} {r : Illegal}

theorem State.popHost_of_host {h : HostInput} (hs : s.host = h :: rest) : s.popHost = { s with host := rest } := by
  simp [State.popHost, hs]

/-- Outside `FAULT` a word that selects no row makes trap entry, and its pair is gone (rules R603, R609; log 3). -/
theorem step_of_illegal_of_not_fault (hs : s.host = .command w p :: rest) (hd : decode w = .error r)
    (hf : s.phase ≠ .fault) :
    step s = .next { s.trapEntry .illegalCommand w with host := rest } := by
  have hpop := State.popHost_of_host ((State.trapEntry_host s .illegalCommand w).trans hs)
  rw [step_of_illegal hs hd, State.raise_of_not_fault s hf, hpop]

/-- In `FAULT` a word that selects no row only sets the response code, and its pair is gone (rule R610; log 3). -/
theorem step_of_illegal_of_fault (hs : s.host = .command w p :: rest) (hd : decode w = .error r)
    (hf : s.phase = .fault) :
    step s = .next { s.answerRaised .illegalCommand with host := rest } := by
  have hpop := State.popHost_of_host ((State.answerRaised_host s .illegalCommand).trans hs)
  rw [step_of_illegal hs hd, State.raise_of_fault s hf, hpop]

end Machine

/-- Settles O5: `exists_decode_eq_error` for the first three clauses, the two step lemmas for the rest. -/
theorem illegalWordsRaiseIllegalCommand : Obligations.IllegalWordsRaiseIllegalCommand :=
  ⟨fun _ => exists_decode_eq_error, ⟨_, rfl⟩, ⟨_, rfl⟩, fun _ _ _ _ _ hs hd =>
    ⟨Machine.step_of_illegal_of_not_fault hs hd, Machine.step_of_illegal_of_fault hs hd⟩⟩

end Sys2Proof

/-! The lane codec: which byte sequences have lanes, what each lane is, and where a written lane goes (rules R400, R403). -/

namespace Sys2Proof

namespace Machine

/-- "each 8-byte group maps to one 64-bit lane": a part of a group has no value (rule R400). -/
theorem lanesFromBytes_eq_none {b : List Byte} (h : b.length % 8 ≠ 0) : lanesFromBytes b = none := if_neg h

theorem lanesFromBytes_eq_some {b : List Byte} (h : b.length % 8 = 0) : lanesFromBytes b = some (laneGroups b) := if_pos h

/-- `laneGroups_getElem` for a read with a default (rule R400). -/
theorem laneGroups_getD {b : List Byte} {j : Nat} (h : j < b.length / 8) : (laneGroups b).getD j 0 = laneOfBytes b j := by
  have hj : j < (laneGroups b).length := by rwa [laneGroups_length]
  rw [← List.getElem_eq_getD (h := hj), laneGroups_getElem]

/-- Lane `j` of a written sequence goes to lane index `j`; the lanes past its end keep their values (rule R403). -/
theorem writeLanes_getElem_eq_ite (S : Lanes) (L : List Lane) (j : Nat) (h : j < 25) :
    (writeLanes S L)[j] = if j < L.length then L.getD j 0 else S[j] := by
  rw [writeLanes_getElem S L j h]
  by_cases hj : j < L.length <;> simp [hj]

end Machine

/-- Settles O29: the lanes are `laneGroups`, and the sum of a group's bytes does not wrap (`laneOfBytes_toNat`). -/
theorem lanesFromBytesIsLittleEndian : Obligations.LanesFromBytesIsLittleEndian := by
  refine ⟨Machine.writeLanes_getElem_eq_ite, fun b => ⟨Machine.lanesFromBytes_eq_none, fun hb => ?_⟩⟩
  refine ⟨Machine.laneGroups b, Machine.lanesFromBytes_eq_some hb, Machine.laneGroups_length b, fun j hj => ?_⟩
  rw [Machine.laneGroups_getD hj]
  exact Machine.laneOfBytes_toNat b j

end Sys2Proof

/-! Family 41 (rotation offsets): what the recurrence of rule R410 writes at each lane it visits. -/

namespace Sys2Proof

namespace Machine

/-- The lane position after `(x, y)` in the recurrence of rule R410. -/
def rhoNext (q : Nat × Nat) : Nat × Nat := (q.2, (2 * q.1 + 3 * q.2) % 5)

/-- The flat indices of the first `n` lanes visited from position `q`. -/
def rhoVisits (n : Nat) (q : Nat × Nat) : List (Fin 25) := (List.iterate rhoNext q n).map fun p => laneIndex p.1 p.2

theorem rhoVisits_succ (n : Nat) (q : Nat × Nat) :
    rhoVisits (n + 1) q = laneIndex q.1 q.2 :: rhoVisits n (rhoNext q) := rfl

theorem rhoFill_succ (n t : Nat) (q : Nat × Nat) (T : Vector (BitVec 6) 25) :
    rhoFill (n + 1) t q.1 q.2 T = rhoFill n (t + 1) (rhoNext q).1 (rhoNext q).2
      (T.set (laneIndex q.1 q.2) (BitVec.ofNat 6 ((t + 1) * (t + 2) / 2 % 64))) := rfl

/-- A lane that is not visited keeps its entry. -/
theorem rhoFill_getElem_of_notMem {n t : Nat} {q : Nat × Nat} {T : Vector (BitVec 6) 25} {i : Fin 25}
    (h : i ∉ rhoVisits n q) : (rhoFill n t q.1 q.2 T)[i] = T[i] := by
  induction n generalizing t q T with
  | zero => rfl
  | succ n ih =>
    rw [rhoVisits_succ, List.mem_cons, not_or] at h
    obtain ⟨hi, hn⟩ := h
    exact (ih hn).trans (Vector.getElem_set_ne _ _ fun e => hi (Fin.ext e.symm))

/-- The `k`-th lane visited holds the offset of its own step, as long as no lane is visited twice. -/
theorem rhoFill_getElem_iterate {n t k : Nat} {q : Nat × Nat} {T : Vector (BitVec 6) 25} (h : (rhoVisits n q).Nodup)
    (hk : k < n) :
    (rhoFill n t q.1 q.2 T)[laneIndex (rhoNext^[k] q).1 (rhoNext^[k] q).2] =
      BitVec.ofNat 6 ((t + k + 1) * (t + k + 2) / 2 % 64) := by
  induction n generalizing t k q T with
  | zero => exact absurd hk k.not_lt_zero
  | succ n ih =>
    rw [rhoVisits_succ, List.nodup_cons] at h
    obtain ⟨hq, hn⟩ := h
    rw [rhoFill_succ]
    cases k with
    | zero => exact (rhoFill_getElem_of_notMem hq).trans (Vector.getElem_set_self _)
    | succ k =>
      rw [← Nat.add_assoc t k 1, Nat.add_right_comm t k 1]
      exact ih hn (Nat.lt_of_succ_lt_succ hk)

/-- The 24 lanes visited from (1,0) are pairwise distinct, so that no offset is overwritten. -/
theorem rhoVisits_nodup : (rhoVisits 24 (1, 0)).Nodup := by decide

end Machine

/-- Settles O34: no lane is visited twice, so the table keeps the offset each step writes. -/
theorem rotationOffsetsFollowTheRecurrence : Obligations.RotationOffsetsFollowTheRecurrence := by
  refine ⟨Machine.rhoOffset_zero, fun t ht => ?_⟩
  have hfill := congrArg BitVec.toNat
    (Machine.rhoFill_getElem_iterate (t := 0) (T := Vector.replicate 25 0) Machine.rhoVisits_nodup ht)
  rw [Nat.zero_add, BitVec.toNat_ofNat, Nat.mod_mod] at hfill
  exact hfill

end Sys2Proof

/-! Family 42 (round constants): the fold of rule R423 sets exactly the listed bits. -/

namespace Sys2Proof

namespace Machine

/-- Setting bit `n` makes that bit one and keeps the others. -/
theorem getLsbD_or_one_shiftLeft {v : Lane} {n z : Nat} (hz : z < 64) :
    (v ||| (1#64 <<< n)).getLsbD z = true ↔ v.getLsbD z = true ∨ z = n := by
  rw [BitVec.getLsbD_or, Bool.or_eq_true, ← BitVec.twoPow_eq, BitVec.getLsbD_twoPow]
  have hn : n < 64 ∧ n = z ↔ z = n := ⟨fun h => h.2.symm, fun h => ⟨h ▸ hz, h.symm⟩⟩
  simp [hn]

/-- A bit of rule R423's fold is one when it was one at the start or a `j` of the list sets it. The start value is
arbitrary because the fold's accumulator changes along the list. -/
theorem getLsbD_foldl_setBits {c : Nat → Bool} {L : List Nat} {v : Lane} {z : Nat} (hz : z < 64) :
    (L.foldl (fun u j => if c j then u ||| (1#64 <<< (2 ^ j - 1)) else u) v).getLsbD z = true ↔
      v.getLsbD z = true ∨ ∃ j ∈ L, z = 2 ^ j - 1 ∧ c j = true := by
  induction L generalizing v with
  | nil => simp
  | cons j L ih =>
    rw [List.foldl_cons, ih]
    by_cases hj : c j = true
    · rw [if_pos hj, getLsbD_or_one_shiftLeft hz]
      simp [hj, or_assoc]
    · simp [hj]

end Machine

/-- Settles O38: the fold starts from 0, which has no bit set, and runs over the `j` up to 6. -/
theorem roundConstantSetsTheListedBits : Obligations.RoundConstantSetsTheListedBits := by
  intro ir _ z hz
  rw [Machine.roundConstant, Machine.getLsbD_foldl_setBits (c := fun j => Machine.rcBit (j + 7 * ir)) hz]
  simp [Nat.lt_succ_iff]

end Sys2Proof

/-! Family 43 (the permutation): a command of the direct access group in `IDLE` replaces the lanes and answers `OK`; what a
sequence of such commands leaves (rules R430 to R446). -/

namespace Sys2Proof

/-- A sequence whose first command gives a next state goes on from that state. -/
theorem execAll_cons_of_next {i : Instr} {is : List Instr} {s t : Machine.State} (h : Machine.exec i s = .next t) :
    execAll (i :: is) s = execAll is t := by
  rw [execAll, h]; rfl

namespace Machine

variable {s : State}

/-- iota at the coordinates (0,0) (rule R435). -/
theorem laneAt_iota_zero (S : Lanes) (ir : Nat) : laneAt (iota S ir) 0 0 = laneAt S 0 0 ^^^ roundConstant ir :=
  iota_getElem_zero S ir

/-- iota at every other coordinates (rule R435). -/
theorem laneAt_iota_of_ne (S : Lanes) (ir : Nat) {x y : Nat} (hx : x < 5) (hy : y < 5) (h : (x, y) ≠ (0, 0)) :
    laneAt (iota S ir) x y = laneAt S x y := by
  have hne : (laneIndex x y).val ≠ 0 := by
    intro h0
    simp only [laneIndex] at h0
    exact h (by rw [Prod.mk.injEq]; omega)
  exact iota_getElem_of_ne S ir _ (laneIndex x y).isLt hne

/-! ### The seven commands in `IDLE` (rules R440 to R446) -/

/-- A command of the direct access group that takes no payload passes its phase check and is framed here (rules R303,
R604). -/
structure State.Ready (s : State) : Prop where
  phase_idle : s.phase = .idle
  offered_nil : s.offered = []

/-- Writing the lanes and the response leaves the engine ready for the next command. -/
theorem State.Ready.withLanes (h : s.Ready) (S : Lanes) (r : Option Response) :
    State.Ready { s with lanes := S, response := r } :=
  ⟨h.phase_idle, (State.offered_congr rfl).trans h.offered_nil⟩

/-- A command legal in `IDLE` and in range, without payload, whose effect is to replace the lanes, completes. -/
theorem State.Ready.exec_eq {i : Instr} {S : Lanes} (h : s.Ready) (hl : legalIn i .idle = true)
    (hr : i.inRange = true) (hw : i.wholeLanes = true) (hb : i.inBytes = 0)
    (he : effect i s s.offered = (s.setLanes S).complete []) :
    exec i s = .next { s with lanes := S, response := some (.ok []) } :=
  exec_of_checks (by rw [h.phase_idle, hl]) hr hw (by rw [h.offered_nil, hb]; rfl)
    (he.trans (s.setLanes_complete S []))

theorem exec_theta (h : s.Ready) :
    exec .theta s = .next { s with lanes := theta s.lanes, response := some (.ok []) } :=
  h.exec_eq rfl rfl rfl rfl rfl

theorem exec_rho (h : s.Ready) : exec .rho s = .next { s with lanes := rho s.lanes, response := some (.ok []) } :=
  h.exec_eq rfl rfl rfl rfl rfl

theorem exec_pi (h : s.Ready) : exec .pi s = .next { s with lanes := pi s.lanes, response := some (.ok []) } :=
  h.exec_eq rfl rfl rfl rfl rfl

theorem exec_chi (h : s.Ready) : exec .chi s = .next { s with lanes := chi s.lanes, response := some (.ok []) } :=
  h.exec_eq rfl rfl rfl rfl rfl

theorem exec_iota (h : s.Ready) {ir : Imm} (hir : ir.toNat ≤ 23) :
    exec (.iota ir) s = .next { s with lanes := iota s.lanes ir.toNat, response := some (.ok []) } :=
  h.exec_eq rfl ((Instr.inRange_iff _).mpr hir) rfl rfl rfl

theorem exec_round (h : s.Ready) {ir : Imm} (hir : ir.toNat ≤ 23) :
    exec (.round ir) s = .next { s with lanes := rnd s.lanes ir.toNat, response := some (.ok []) } :=
  h.exec_eq rfl ((Instr.inRange_iff _).mpr hir) rfl rfl rfl

theorem exec_permute (h : s.Ready) {nr : Imm} (hnr : nr.toNat ≤ 24) :
    exec (.permute nr) s = .next { s with lanes := permute s.lanes nr.toNat, response := some (.ok []) } :=
  h.exec_eq rfl ((Instr.inRange_iff _).mpr hnr) rfl rfl rfl

/-! ### Sequences (rules R436, R437) -/

/-- Each of the five steps finds the engine ready, because the step before it wrote the lanes and the response only; what
they leave in the lanes is the composition that `rnd` is (rule R436). -/
theorem execAll_round_steps (h : s.Ready) {ir : Imm} (hir : ir.toNat ≤ 23) :
    execAll [.theta, .rho, .pi, .chi, .iota ir] s =
      .next { s with lanes := rnd s.lanes ir.toNat, response := some (.ok []) } := by
  rw [execAll_cons_of_next (exec_theta h), execAll_cons_of_next (exec_rho (h.withLanes _ _)),
    execAll_cons_of_next (exec_pi (h.withLanes _ _)), execAll_cons_of_next (exec_chi (h.withLanes _ _)),
    execAll_cons_of_next (exec_iota (h.withLanes _ _) hir)]
  simp only [execAll, rnd]

/-- `ROUND` commands one after another leave the fold of their rounds in the lanes (rules R437, R445). -/
theorem execAll_rounds {L : List Nat} (h : s.Ready) (hL : ∀ ir ∈ L, ir ≤ 23) :
    ∃ t, execAll (L.map fun ir => .round (BitVec.ofNat 24 ir)) s = .next t ∧ t.lanes = L.foldl rnd s.lanes := by
  induction L generalizing s with
  | nil => exact ⟨s, rfl, rfl⟩
  | cons ir L ih =>
    obtain ⟨hir, hL⟩ := List.forall_mem_cons.mp hL
    have hn : (BitVec.ofNat 24 ir).toNat = ir := by rw [BitVec.toNat_ofNat]; omega
    have hx := exec_round h (hn.trans_le hir)
    rw [hn] at hx
    rw [List.map_cons, execAll_cons_of_next hx, List.foldl_cons]
    exact ih (h.withLanes _ _) hL

end Machine

/-- Settles O46: the `ROUND` commands leave a fold of rounds, and `permute` is that fold. -/
theorem permuteEqualsTheLastRounds : Obligations.PermuteEqualsTheLastRounds := by
  intro s nr hp hnr ho
  have hrounds : ∀ ir ∈ List.range' (24 - nr.toNat) nr.toNat, ir ≤ 23 := by
    intro ir hir
    rw [List.mem_range'_1] at hir
    omega
  obtain ⟨t, hrun, hlanes⟩ := Machine.execAll_rounds ⟨hp, ho⟩ hrounds
  refine ⟨_, t, Machine.exec_permute ⟨hp, ho⟩ hnr, hrun, hlanes, ?_⟩
  rintro rfl
  exact Machine.permute_zero s.lanes

/-- Settles O41: rotation left, bit by bit, on each lane. -/
theorem rhoRotatesEveryLaneLeft : Obligations.RhoRotatesEveryLaneLeft := by
  intro s hp ho
  refine ⟨_, Machine.exec_rho ⟨hp, ho⟩, fun x hx y hy z hz => ?_⟩
  rw [Machine.laneAt_rho s.lanes hx hy]
  exact Machine.rotl64_getLsbD _ _ _ (Machine.rhoOffset_lt x y) hz

/-- Settles O43: the lane formula of chi, read at one bit. -/
theorem chiCombinesEachRow : Obligations.ChiCombinesEachRow := by
  intro s hp ho
  refine ⟨_, Machine.exec_chi ⟨hp, ho⟩, fun x hx y hy z hz => ?_⟩
  rw [Machine.laneAt_chi s.lanes hx hy, BitVec.getLsbD_xor, BitVec.getLsbD_and, BitVec.getLsbD_not, decide_eq_true hz,
    Bool.true_and]

/-- Settles O45: both ways complete with the lanes of `rnd`. -/
theorem roundEqualsTheFiveSteps : Obligations.RoundEqualsTheFiveSteps :=
  fun _ _ hp hir ho => ⟨_, Machine.exec_round ⟨hp, ho⟩ hir, Machine.execAll_round_steps ⟨hp, ho⟩ hir⟩

/-- Settles O40: the statement's `C` is `columnParity`. -/
theorem thetaAddsTheColumnCorrections : Obligations.ThetaAddsTheColumnCorrections :=
  fun s hp ho => ⟨_, Machine.exec_theta ⟨hp, ho⟩, fun _ hx _ hy => Machine.laneAt_theta s.lanes hx hy⟩

/-- Settles O42: pi, lane by lane. -/
theorem piRelocatesEveryLane : Obligations.PiRelocatesEveryLane :=
  fun s hp ho => ⟨_, Machine.exec_pi ⟨hp, ho⟩, fun _ hx _ hy => Machine.laneAt_pi s.lanes hx hy⟩

/-- Settles O44: iota at lane (0,0) and at the others. -/
theorem iotaInjectsTheConstantIntoLaneZero : Obligations.IotaInjectsTheConstantIntoLaneZero :=
  fun s ir hp hir ho => ⟨_, Machine.exec_iota ⟨hp, ho⟩ hir, Machine.laneAt_iota_zero s.lanes ir.toNat,
    fun _ hx _ hy => Machine.laneAt_iota_of_ne s.lanes ir.toNat hx hy⟩

end Sys2Proof

/-! Family 44 (padding): the five lines of rule R460, one lemma each, and `PAD` outside `FAULT` (rule R462). -/

namespace Sys2Proof

namespace Machine

variable {c : List Byte} {k : Nat}

/-- "`P[k] = c[k]` for `0 <= k < n`" (rule R460): a chunk byte is never the last byte of the block. -/
theorem padByte_of_lt_length (hc : c.length ≤ 167) (hk : k < c.length) : padByte c k = c.getD k 0 := by
  have hlast : k ≠ 167 := by omega
  simp [padByte, hk, hlast]

/-- "`P[n] = 0x1F`" while byte `n` is not the last (rule R460). -/
theorem padByte_length (hc : c.length ≤ 166) : padByte c c.length = 0x1F := by
  have hlast : c.length ≠ 167 := by omega
  simp [padByte, hlast]

/-- "`P[k] = 0x00` for `n < k < 167`" (rule R460). -/
theorem padByte_of_length_lt (hk : c.length < k) (hlast : k < 167) : padByte c k = 0x00 := by
  simp [padByte, hk.not_gt, hk.ne', hlast.ne]

/-- The last byte is 0x80 alone while the marks stand in different bytes (rule R460). -/
theorem padByte_last (hc : c.length ≤ 166) : padByte c 167 = 0x80 := by
  have hlt : ¬ 167 < c.length := by omega
  have hne : 167 ≠ c.length := by omega
  simp [padByte, hlt, hne]

/-- "for `n = 167`, `P[167] = 0x1F or 0x80 = 0x9F`" (rule R460). -/
theorem padByte_last_shared (hc : c.length = 167) : padByte c 167 = 0x9F := by
  simp [padByte, hc]

/-- `PAD` is legal in every phase but `FAULT` (rule R462). -/
theorem legalIn_pad {len : Imm} {p : Phase} : legalIn (.pad len) p = true ↔ p ≠ .fault := by
  cases p <;> simp [legalIn]

/-- `PAD` of a chunk completes with its padded block (rule R462). -/
theorem exec_pad {s : State} {len : Imm} (hp : s.phase ≠ .fault) (hl : len.toNat ≤ 167)
    (ho : s.offered.length = len.toNat) :
    exec (.pad len) s = .next { s with response := some (.ok (pad s.offered)) } :=
  exec_of_checks (legalIn_pad.mpr hp) ((Instr.inRange_iff _).mpr hl) rfl ho (s.complete_eq _)

end Machine

/-- Settles O48: the block is `pad` of the payload, and its bytes are those of rule R460, line by line. -/
theorem padGivesThePaddedBlock : Obligations.PadGivesThePaddedBlock := by
  intro s len hp hl ho
  refine ⟨_, Machine.exec_pad hp hl ho, Machine.pad_length _, fun k hk => ?_, fun hn => ⟨?_, fun k hk hlast => ?_, ?_⟩,
    fun hn => ?_⟩ <;> rw [Machine.pad_getD _ (by omega)]
  · exact Machine.padByte_of_lt_length (by omega) (by omega)
  · rw [← ho]
    exact Machine.padByte_length (by omega)
  · exact Machine.padByte_of_length_lt (by omega) hlast
  · exact Machine.padByte_last (by omega)
  · exact Machine.padByte_last_shared (by omega)

end Sys2Proof

/-! Family 45 (sponge controller): the exclusive or of a block into the state, byte by byte (rule R471). -/

namespace Sys2Proof

namespace Machine

/-- `stateView_getElem?` for a read with a default inside the view (rule R202). -/
theorem stateView_getD (S : Lanes) {n : Nat} (h : n < 200) : (stateView S).getD n 0 = laneByte S[n / 8] (n % 8) := by
  have hj : n / 8 < 25 := by omega
  rw [List.getD_eq_getElem?_getD, stateView_getElem?, Vector.getElem?_eq_getElem hj, Option.map_some, Option.getD_some]

/-- Byte `n mod 8` of lane `n div 8` of a byte sequence is its byte `n` (rules R400, R401). -/
theorem laneByte_laneGroups_getD {b : List Byte} {n : Nat} (h : n / 8 < b.length / 8) :
    laneByte ((laneGroups b).getD (n / 8) 0) (n % 8) = b.getD n 0 := by
  rw [laneGroups_getD h, laneByte_laneOfBytes _ _ _ (Nat.mod_lt n (by decide)), Nat.div_add_mod]

/-- "Byte `k` of `B` is XORed into byte `k` of the state byte view": the bytes of the rate lanes (rule R471). -/
theorem stateView_xorRate_of_lt (S : Lanes) {B : List Byte} (hB : B.length = 168) {n : Nat} (h : n < 168) :
    (stateView (xorRate S B)).getD n 0 = (stateView S).getD n 0 ^^^ B.getD n 0 := by
  have hrate : n / 8 < 21 := by omega
  have hgroup : n / 8 < B.length / 8 := by omega
  rw [stateView_getD _ (by omega), stateView_getD _ (by omega), xorRate_getElem, if_pos hrate, laneByte_xor,
    laneByte_laneGroups_getD hgroup]

/-- A capacity lane keeps its value (rule R471). -/
theorem xorRate_getElem_of_le (S : Lanes) (B : List Byte) {i : Nat} (h : i < 25) (hi : 21 ≤ i) : (xorRate S B)[i] = S[i] :=
  (xorRate_getElem S B i h).trans (if_neg hi.not_gt)

/-- The bytes past the rate belong to the capacity lanes, which keep their values (rule R471). -/
theorem stateView_xorRate_of_le (S : Lanes) (B : List Byte) {n : Nat} (hn : n < 200) (h : 168 ≤ n) :
    (stateView (xorRate S B)).getD n 0 = (stateView S).getD n 0 := by
  rw [stateView_getD _ hn, stateView_getD _ hn, xorRate_getElem_of_le S B _ (by omega)]

end Machine

/-- Settles O51: the permuted state is `xorRate S B`, whose bytes differ from the old ones in the rate lanes only. -/
theorem absorbBlockXorsTheRateBytes : Obligations.AbsorbBlockXorsTheRateBytes := by
  refine fun S B hB => ⟨Machine.xorRate S B, rfl, fun n hn => ?_, fun _ => Machine.xorRate_getElem_of_le S B⟩
  split
  case isTrue hrate => exact Machine.stateView_xorRate_of_lt S hB hrate
  case isFalse hrate => exact Machine.stateView_xorRate_of_le S B hn (Nat.le_of_not_lt hrate)

end Sys2Proof

/-! Family 46 (the digest function): every digest of a message is cut from one byte stream (rule R494). -/

namespace Sys2Proof

namespace Machine

/-- A longer output takes at least as many passes (rule R474). -/
theorem passCount_le_passCount {n m : Nat} (h : n ≤ m) : passCount n ≤ passCount m :=
  Nat.div_le_div_right (Nat.add_le_add_right h _)

/-- A digest has exactly the requested length (rule R490). -/
@[simp] theorem digest_length (M : List Byte) (n : Nat) : (digest M n).length = n := by
  rw [digest, List.length_take, squeezePasses_length, Nat.min_eq_left (le_passCount n)]

/-- The passes beyond those a digest needs do not change it, because they only add bytes past its end. -/
theorem digest_eq_take_of_le (M : List Byte) {n p : Nat} (h : passCount n ≤ p) :
    digest M n = (squeezePasses p (absorbMessage M)).1.take n := by
  obtain ⟨k, rfl⟩ := Nat.exists_eq_add_of_le h
  have hlen : n ≤ (squeezePasses (passCount n) (absorbMessage M)).1.length :=
    (le_passCount n).trans_eq (squeezePasses_length _ _).symm
  rw [squeezePasses_add, List.take_append_of_le_length hlen, digest]

end Machine

/-- Settles O57: both digests are cut from the passes of the longer one, and a shorter cut is a prefix of a longer. -/
theorem longerDigestExtendsTheShorter : Obligations.LongerDigestExtendsTheShorter := by
  refine fun M n m h => ⟨?_, Machine.digest_length M n⟩
  rw [Machine.digest_eq_take_of_le M (Machine.passCount_le_passCount h), Machine.digest]
  exact List.take_prefix_take_left h

end Sys2Proof

/-! Family 60 (exceptions): which exception a command answers, read off its three checks (rules R306, R608), and the trap
entry it makes outside `FAULT` (rule R609). -/

namespace Sys2Proof

/-- An operand is out of range exactly when it is larger than the command allows (rule R605). -/
theorem Instr.inRange_eq_false {i : Instr} : i.inRange = false ↔ i.operandMax < i.operand.toNat := by
  simp [Instr.inRange]

/-- A raw codec command is in range up to the 200 bytes of the state (rules R403, R404). -/
theorem Instr.inRange_rawCodec {i : Instr} {n : Imm} (h : i = .ldst n ∨ i = .rdst n) :
    i.inRange = true ↔ n.toNat ≤ 200 := by
  rcases h with rfl | rfl <;> exact decide_eq_true_iff

/-- `SQUEEZE`, `RDRCB` and `FAIL` accept every 24-bit operand (rule R605). -/
theorem Instr.inRange_of_mem_unbounded {i : Instr} {n : Imm} (h : i ∈ [Instr.squeeze n, .rdrcb n, .fail n]) :
    i.inRange = true := by
  revert i
  simp

namespace Machine

variable {i : Instr} {s t : State} {e : Exc} {p : Phase} {n : Imm}

/-! ### The answer of a command, by the first check that fails -/

/-- The phase check is the first of the three, so no other condition enters (rule R608). -/
theorem firstFailure_eq_phaseError : firstFailure i s = some .phaseError ↔ legalIn i s.phase = false := by
  simp [firstFailure_eq_some]

theorem firstFailure_eq_operandRange :
    firstFailure i s = some .operandRange ↔ legalIn i s.phase = true ∧ i.inRange = false := by
  simp [firstFailure_eq_some]

theorem firstFailure_eq_invalidLength :
    firstFailure i s = some .invalidLength ↔ legalIn i s.phase = true ∧ i.inRange = true ∧ i.wholeLanes = false := by
  simp [firstFailure_eq_some]

/-- `FAIL` has no other check than its phase: it accepts every 24-bit code (rules R475, R600). -/
theorem firstFailure_fail_eq_none {code : Imm} :
    firstFailure (.fail code) s = none ↔ legalIn (.fail code) s.phase = true := by
  simp [firstFailure_eq_none, Instr.wholeLanes]

/-- Past its checks only `FAIL` raises, and only StreamFailure (rules R475, R606). -/
theorem effect_response_eq_raised {inp : List Byte} :
    (effect i s inp).response = some (.raised e) ↔ e = .streamFailure ∧ ∃ code, i = .fail code := by
  rcases effect_response i s inp with ⟨code, hi, hr⟩ | ⟨hi, out, hr⟩
  · rw [hr]
    simp [hi, eq_comm]
  · simp [hr, hi]

/-- A command answers the exception of its first failing check, and StreamFailure if it is a `FAIL` none of whose checks
fails (rule R608). -/
theorem exec_response_eq_raised (h : exec i s = .next t) :
    t.response = some (.raised e) ↔
      firstFailure i s = some e ∨ firstFailure i s = none ∧ e = .streamFailure ∧ ∃ code, i = .fail code := by
  rcases exec_eq_next.mp h with ⟨e', hf, rfl⟩ | ⟨hf, -, rfl⟩
  · simp [hf]
  · simp [hf, effect_response_eq_raised]

theorem exec_response_eq_phaseError (h : exec i s = .next t) :
    t.response = some (.raised .phaseError) ↔ legalIn i s.phase = false := by
  simp [exec_response_eq_raised h, firstFailure_eq_phaseError]

theorem exec_response_eq_operandRange (h : exec i s = .next t) :
    t.response = some (.raised .operandRange) ↔ legalIn i s.phase = true ∧ i.inRange = false := by
  simp [exec_response_eq_raised h, firstFailure_eq_operandRange]

theorem exec_response_eq_invalidLength (h : exec i s = .next t) :
    t.response = some (.raised .invalidLength) ↔
      legalIn i s.phase = true ∧ i.inRange = true ∧ i.wholeLanes = false := by
  simp [exec_response_eq_raised h, firstFailure_eq_invalidLength]

/-- No check raises StreamFailure, so what is left is a `FAIL` in a legal phase (rule R602). -/
theorem exec_response_eq_streamFailure (h : exec i s = .next t) :
    t.response = some (.raised .streamFailure) ↔ legalIn i s.phase = true ∧ ∃ code, i = .fail code := by
  have hcheck : firstFailure i s ≠ some .streamFailure := by simp [firstFailure_eq_some]
  rw [exec_response_eq_raised h, or_iff_right hcheck]
  constructor
  · rintro ⟨hf, -, code, rfl⟩
    exact ⟨firstFailure_fail_eq_none.mp hf, code, rfl⟩
  · rintro ⟨hl, code, rfl⟩
    exact ⟨firstFailure_fail_eq_none.mpr hl, rfl, code, rfl⟩

/-- IllegalCommand belongs to words that select no row; no command answers it (rule R603). -/
theorem exec_response_ne_illegalCommand (h : exec i s = .next t) : t.response ≠ some (.raised .illegalCommand) := by
  simp [exec_response_eq_raised h, firstFailure_eq_some]

/-- What a step on a decodable word leaves is what its command leaves, the input taken (rule R306). -/
theorem exists_exec_of_step {w : Word} {b : List Byte} {rest : List HostInput} (hs : s.host = .command w b :: rest)
    (hd : decode w = .ok i) (h : step s = .next t) : ∃ u, exec i s = .next u ∧ t = u.popHost := by
  rw [step_of_decode hs hd] at h
  cases hx : exec i s <;> rw [hx] at h <;> cases h
  exact ⟨_, rfl, rfl⟩

/-! ### Trap entry outside `FAULT` -/

/-- Outside `FAULT` the first failing check makes trap entry with the command's own word (rules R306, R609). -/
theorem exec_of_failure_of_not_fault (hp : s.phase ≠ .fault) (h : firstFailure i s = some e) :
    exec i s = .next (s.trapEntry e (encode i)) := by
  rw [exec_of_failure h, s.raise_of_not_fault hp]

/-- Outside `FAULT` a command in a phase it is not legal in makes trap entry with PhaseError (rule R604). -/
theorem exec_of_illegal (hp : s.phase ≠ .fault) (hl : legalIn i s.phase ≠ true) :
    exec i s = .next (s.trapEntry .phaseError (encode i)) :=
  exec_of_failure_of_not_fault hp (firstFailure_of_illegal (Bool.eq_false_of_not_eq_true hl))

/-- In a legal phase an operand larger than the command allows makes trap entry with OperandRange (rule R605). -/
theorem exec_of_outOfRange (hp : s.phase ≠ .fault) (hl : legalIn i s.phase = true) (hn : i.operandMax < i.operand.toNat) :
    exec i s = .next (s.trapEntry .operandRange (encode i)) :=
  exec_of_failure_of_not_fault hp (firstFailure_of_outOfRange hl (Instr.inRange_eq_false.mpr hn))

/-- A raw codec command on a part of a lane makes trap entry with InvalidLength (rule R601). -/
theorem exec_of_partLane (hp : s.phase ≠ .fault) (hl : legalIn i s.phase = true) (hi : i = .ldst n ∨ i = .rdst n)
    (hn : n.toNat ≤ 200) (hmod : n.toNat % 8 ≠ 0) : exec i s = .next (s.trapEntry .invalidLength (encode i)) := by
  have hlanes : i.wholeLanes = false := Instr.wholeLanes_eq_false.mpr ⟨n, hi, hmod⟩
  exact exec_of_failure_of_not_fault hp (firstFailure_of_partLane hl ((Instr.inRange_rawCodec hi).mpr hn) hlanes)

/-- `FAIL` in `ABSORB` makes trap entry with StreamFailure and its own word (rules R475, R602). -/
theorem exec_fail {code : Imm} (hp : s.phase = .absorb) (ho : s.offered = []) :
    exec (.fail code) s = .next (s.trapEntry .streamFailure (encode (.fail code))) := by
  have hl : legalIn (.fail code) s.phase = true := by rw [hp]; rfl
  have hfault : s.phase ≠ .fault := by simp [hp]
  have hlen : s.offered.length = 0 := by rw [ho]; rfl
  rw [exec_of_none (firstFailure_fail_eq_none.mpr hl) hlen, effect, s.raise_of_not_fault hfault]

/-! ### The phase table (rules R305, R604) -/

/-- The commands legal in `IDLE` only: the direct commands and `INIT`, with operand `n` where they have one. -/
def idleOnly (n : Imm) : List Instr :=
  [.ldst n, .rdst n, .theta, .rho, .pi, .chi, .iota n, .round n, .permute n, .init]

/-- The commands legal in `ABSORB` only, with operand `n`. -/
def absorbOnly (n : Imm) : List Instr := [.absorb n, .fail n]

/-- The commands legal in every phase but `FAULT`, with operand `n`. -/
def unlessFault (n : Imm) : List Instr := [.rdrho n, .rdrcb n, .rdrc n, .pad n]

theorem legalIn_of_mem_idleOnly (h : i ∈ idleOnly n) : legalIn i p = true ↔ p = .idle := by
  revert i
  simp [idleOnly, legalIn]

theorem legalIn_of_mem_absorbOnly (h : i ∈ absorbOnly n) : legalIn i p = true ↔ p = .absorb := by
  revert i
  simp [absorbOnly, legalIn]

theorem legalIn_squeeze : legalIn (.squeeze n) p = true ↔ p = .squeeze := by
  simp [legalIn]

theorem legalIn_of_mem_unlessFault (h : i ∈ unlessFault n) : legalIn i p = true ↔ p ≠ .fault := by
  revert i
  cases p <;> simp [unlessFault, legalIn]

/-- Every command has its place in the phase table (rule R305). -/
theorem mem_phaseTable (i : Instr) :
    i ∈ idleOnly i.operand ∨ i ∈ absorbOnly i.operand ∨ i = .squeeze i.operand ∨ i ∈ unlessFault i.operand ∨
      i = .rdsr ∨ i = .clrf := by
  cases i <;> simp [idleOnly, absorbOnly, unlessFault, Instr.operand]

end Machine

open Machine

/-- Settles O13: a word that selects no row answers IllegalCommand, and a command answers by `exec_response_eq_raised`. -/
theorem responseCodeFollowsTheCheckOrder : Obligations.ResponseCodeFollowsTheCheckOrder := by
  intro s t w b rest hs _ ht
  cases hd : decode w with
  | error r =>
    rw [step_of_illegal hs hd] at ht
    cases ht
    simp
  | ok i =>
    obtain ⟨u, hu, rfl⟩ := exists_exec_of_step hs hd ht
    rw [State.popHost_response]
    refine ⟨iff_of_false (exec_response_ne_illegalCommand hu) (by simp), fun j hj => ?_⟩
    cases hj
    exact ⟨exec_response_eq_phaseError hu, exec_response_eq_operandRange hu, exec_response_eq_invalidLength hu,
      exec_response_eq_streamFailure hu⟩

/-- Settles O14: each group of the phase table is illegal in every phase but its own, the rest is legal outside `FAULT`. -/
theorem phaseErrorTable : Obligations.PhaseErrorTable := by
  refine fun s n => ⟨fun hp i hi => ?_, fun hp i hi => ?_, fun hp => ?_, fun i t ht hr hp => ?_⟩
  · obtain ⟨hf, hne⟩ : s.phase ≠ .fault ∧ s.phase ≠ .idle := by rcases hp with hp | hp <;> simp [hp]
    exact exec_of_illegal hf (mt (legalIn_of_mem_idleOnly hi).mp hne)
  · obtain ⟨hf, hne⟩ : s.phase ≠ .fault ∧ s.phase ≠ .absorb := by rcases hp with hp | hp <;> simp [hp]
    exact exec_of_illegal hf (mt (legalIn_of_mem_absorbOnly hi).mp hne)
  · obtain ⟨hf, hne⟩ : s.phase ≠ .fault ∧ s.phase ≠ .squeeze := by rcases hp with hp | hp <;> simp [hp]
    exact exec_of_illegal hf (mt legalIn_squeeze.mp hne)
  · have hl : legalIn i s.phase ≠ true := by simp [(exec_response_eq_phaseError ht).mp hr]
    rcases mem_phaseTable i with hi | hi | hi | hi | rfl | rfl
    · exact .inl ⟨mt (legalIn_of_mem_idleOnly hi).mpr hl, hi⟩
    · exact .inr (.inl ⟨mt (legalIn_of_mem_absorbOnly hi).mpr hl, hi⟩)
    · rw [hi] at hl
      exact .inr (.inr ⟨mt legalIn_squeeze.mpr hl, hi⟩)
    · exact absurd ((legalIn_of_mem_unlessFault hi).mpr hp) hl
    · exact absurd rfl hl
    · exact absurd rfl hl

/-- Settles O15: in a legal phase the bound decides; `SQUEEZE`, `RDRCB` and `FAIL` have none. -/
theorem operandRangeTable : Obligations.OperandRangeTable := by
  refine fun s n => ⟨fun hp => ?_, fun hp => ?_, fun hp => ?_, fun i hi t ht => ?_⟩
  · have hf : s.phase ≠ .fault := by simp [hp]
    have trap {i} (hi : i ∈ idleOnly n) := exec_of_outOfRange hf ((legalIn_of_mem_idleOnly hi).mpr hp)
    refine ⟨fun hn i hi => ?_, fun hn i hi => ?_, fun hn => trap (by simp [idleOnly]) hn⟩ <;>
      rcases List.mem_pair.mp hi with rfl | rfl <;> exact trap (by simp [idleOnly]) hn
  · have trap {i} (hi : i ∈ unlessFault n) := exec_of_outOfRange hp ((legalIn_of_mem_unlessFault hi).mpr hp)
    refine ⟨fun hn => trap ?_ hn, fun hn => trap ?_ hn, fun hn => trap ?_ hn⟩ <;> simp [unlessFault]
  · have hf : s.phase ≠ .fault := by simp [hp]
    have hi : .absorb n ∈ absorbOnly n := by simp [absorbOnly]
    exact exec_of_outOfRange hf ((legalIn_of_mem_absorbOnly hi).mpr hp)
  · simp [exec_response_eq_operandRange ht, Instr.inRange_of_mem_unbounded hi]

/-- Settles O16: only the raw codec has a granularity (`Instr.wholeLanes_eq_false`). -/
theorem invalidLengthOnlyFromTheRawCodec : Obligations.InvalidLengthOnlyFromTheRawCodec := by
  refine ⟨fun s n hp hn hmod i hi => ?_, fun s t i ht hr => ?_⟩
  · have hf : s.phase ≠ .fault := by simp [hp]
    have hcodec : i = .ldst n ∨ i = .rdst n := List.mem_pair.mp hi
    have hl : legalIn i s.phase = true := by rcases hcodec with rfl | rfl <;> rw [hp] <;> rfl
    exact exec_of_partLane hf hl hcodec hn hmod
  · obtain ⟨-, hrange, hlanes⟩ := (exec_response_eq_invalidLength ht).mp hr
    obtain ⟨n, hi, hmod⟩ := Instr.wholeLanes_eq_false.mp hlanes
    exact ⟨n, hi, (Instr.inRange_rawCodec hi).mp hrange, hmod⟩

/-- Settles O55: the latched word is the encoding of the command, whose fields are its opcode and its operand. -/
theorem failRaisesStreamFailure : Obligations.FailRaisesStreamFailure :=
  fun _ code hp ho => ⟨encode (.fail code), exec_fail hp ho, (Laws.Layout.fail code).symm⟩

end Sys2Proof

/-! The command word both ways: each command's word has its own two fields, and the rows of the opcode map are read off the
opcode and, for format N, the operand 0 (rules R300 to R308). -/

namespace Sys2Proof

/-- A word decodes to a command exactly when its two fields are the command's opcode and operand. The split is along the
decoder's own arms, in each of which the opcode is known. -/
theorem decode_eq_ok {w : Word} {i : Instr} :
    decode w = .ok i ↔ opcodeField w = i.opcode ∧ immField w = i.operand := by
  constructor
  · intro h
    unfold decode at h
    split at h
    case h_20 => cases h
    case h_6 hop | h_7 hop | h_8 hop | h_9 hop | h_14 hop | h_18 hop | h_19 hop =>
      obtain ⟨himm, rfl⟩ := decodeFormatN_eq_ok.mp h
      exact ⟨BitVec.eq_of_toNat_eq hop, himm⟩
    all_goals
      rename_i hop
      cases h
      exact ⟨BitVec.eq_of_toNat_eq hop, rfl⟩
  · rintro ⟨hop, himm⟩
    cases i <;> simp_all [decode, decodeFormatN_eq_ok, Instr.opcode, Instr.operand]

/-- No word is a second spelling of a command (rule R308). -/
theorem encode_eq_of_decode_eq_ok {w : Word} {i : Instr} (h : decode w = .ok i) : encode i = w := by
  obtain ⟨hop, himm⟩ := decode_eq_ok.mp h
  rw [encode, ← hop, ← himm, wordOf_fields]

/-! ### The rows of the opcode map (rule R305) -/

/-- The pair (match, mask) of an opcode: the mask covers the operand for format N only (rules R301, R305). -/
def opcodeRow (op : Nat) : Word × Word :=
  (wordOf (BitVec.ofNat 8 op) 0, wordOf 0xFF (if op ∈ formatNOpcodes then 0xFFFFFF else 0))

theorem opcodeRows_eq_map : opcodeRows = assignedOpcodes.map opcodeRow := by decide

theorem wordOf_inj {op op' : BitVec 8} {imm imm' : Imm} :
    wordOf op imm = wordOf op' imm' ↔ op = op' ∧ imm = imm' := by
  constructor
  · intro h
    have hop := congrArg opcodeField h
    have himm := congrArg immField h
    simp only [opcodeField_wordOf, immField_wordOf] at hop himm
    exact ⟨hop, himm⟩
  · rintro ⟨rfl, rfl⟩
    rfl

/-- A mask acts on each field by itself. -/
theorem and_wordOf (w : Word) (op : BitVec 8) (imm : Imm) :
    w &&& wordOf op imm = wordOf (opcodeField w &&& op) (immField w &&& imm) := by
  conv_lhs => rw [← wordOf_fields w]
  exact BitVec.and_append

/-- A word selects the row of its opcode, and a format N row only with the operand 0 (rules R301, R305). -/
theorem and_opcodeRow {w : Word} {op : Nat} :
    w &&& (opcodeRow op).2 = (opcodeRow op).1 ↔
      opcodeField w = BitVec.ofNat 8 op ∧ (op ∈ formatNOpcodes → immField w = 0) := by
  have hop : opcodeField w &&& 0xFF = opcodeField w := BitVec.and_allOnes
  have himm : immField w &&& 0xFFFFFF = immField w := BitVec.and_allOnes
  rw [opcodeRow, and_wordOf, wordOf_inj, hop]
  by_cases h : op ∈ formatNOpcodes
  · simp only [h, if_true, himm, forall_const]
  · simp [h]

/-- Every assigned opcode fits its field. -/
theorem lt_of_mem_assignedOpcodes {op : Nat} (h : op ∈ assignedOpcodes) : op < 2 ^ 8 := by
  revert op
  decide

/-- A word selects some row exactly when its opcode is assigned and, under format N, its operand is 0 (rule R305). -/
theorem exists_opcodeRow {w : Word} :
    (∃ row ∈ opcodeRows, w &&& row.2 = row.1) ↔
      (opcodeField w).toNat ∈ assignedOpcodes ∧ ((opcodeField w).toNat ∈ formatNOpcodes → immField w = 0) := by
  simp only [opcodeRows_eq_map, List.mem_map, exists_exists_and_eq_and, and_opcodeRow]
  constructor
  · rintro ⟨op, hmem, hop, himm⟩
    have heq : (opcodeField w).toNat = op := by
      rw [hop, BitVec.toNat_ofNat, Nat.mod_eq_of_lt (lt_of_mem_assignedOpcodes hmem)]
    rw [heq]
    exact ⟨hmem, himm⟩
  · rintro ⟨hmem, himm⟩
    exact ⟨_, hmem, by simp, himm⟩

/-- A word decodes or is illegal, never both (rule R307). -/
theorem exists_decode_eq_ok {w : Word} :
    (∃ i, decode w = .ok i) ↔ ¬ ∃ r, decode w = .error r := by
  cases decode w <;> simp

/-- Settles O1: the fields of a command's word are the command's own. -/
theorem decodeOfEncodeIsTheCommand : Obligations.DecodeOfEncodeIsTheCommand :=
  fun i => decode_eq_ok.mpr (Laws.Layout.any i)

/-- Settles O2: the decoded command has the word's fields, and a word is its fields. -/
theorem decodedWordIsTheEncoding : Obligations.DecodedWordIsTheEncoding :=
  fun _ _ => encode_eq_of_decode_eq_ok

/-- Settles O3: `exists_decode_eq_error` lists the illegal words, `exists_opcodeRow` says that no row selects them. -/
theorem wordDecodesExactlyWhenItSelectsARow : Obligations.WordDecodesExactlyWhenItSelectsARow := by
  intro w
  rw [exists_decode_eq_ok, exists_decode_eq_error, exists_opcodeRow]
  tauto

/-- Settles O4: a row fixes the opcode, and the 19 opcodes are pairwise distinct. -/
theorem noWordSelectsTwoRows : Obligations.NoWordSelectsTwoRows := by
  refine ⟨rfl, ?_⟩
  have hdistinct : assignedOpcodes.Pairwise fun a b => BitVec.ofNat 8 a ≠ BitVec.ofNat 8 b := by decide
  rw [opcodeRows_eq_map, List.pairwise_map]
  refine hdistinct.imp fun hne w ⟨ha, hb⟩ => hne ?_
  rw [← (and_opcodeRow.mp ha).1, ← (and_opcodeRow.mp hb).1]

/-- Settles O6: the fields of each word are the command's, and the three others have no row. -/
theorem sampleWordsDecode : Obligations.SampleWordsDecode := by
  unfold Obligations.SampleWordsDecode
  decide

end Sys2Proof

/-! The step around a command: what it takes from the host, when it stops, and what an exception leaves (rules R303, R306,
R609 to R611, R700). -/

namespace Sys2Proof

namespace Machine

variable {i : Instr} {s t : State} {w : Word} {p : List Byte} {rest : List HostInput} {e : Exc}

/-- A step takes the next input and no other (rule R5). -/
theorem step_host (h : step s = .next t) : t.host = s.host.tail := by
  rcases step_cases h with ⟨hs, rfl⟩ | ⟨rest, hs, rfl⟩ | ⟨w, p, rest, r, hs, -, rfl⟩ | ⟨w, p, rest, i, u, hs, -, hu, rfl⟩
  · rw [hs, List.tail_nil]
  · rw [hs, List.tail_cons]
  · rw [State.popHost_host, State.raise_host]
  · rw [State.popHost_host, exec_host hu]

/-! ### Stops -/

/-- A command stops exactly when it passes its checks and its payload is misframed (log 2). -/
theorem exec_eq_fault {f : Fault} :
    exec i s = .fault f ↔ firstFailure i s = none ∧ s.offered.length ≠ i.inBytes ∧ f = .payloadFraming := by
  rw [exec_eq_checked, checked_eq_fault]

theorem exec_ne_refused {r : Refusal} : exec i s ≠ .refused r := by
  rw [exec_eq_checked]
  exact checked_ne_refused

/-- A step stops with a reason that its command stops with. -/
theorem finish_eq_fault {o : Host.Outcome State Fault Refusal} {f : Fault} : finish o = .fault f ↔ o = .fault f := by
  cases o <;> simp [finish]

theorem finish_eq_refused {o : Host.Outcome State Fault Refusal} {r : Refusal} :
    finish o = .refused r ↔ o = .refused r := by
  cases o <;> simp [finish]

/-- Waiting, a reset and a word that selects no row never stop, so a step that stops runs a command that stops. -/
theorem step_eq_fault {f : Fault} (h : step s = .fault f) :
    ∃ w p rest i, s.host = .command w p :: rest ∧ decode w = .ok i ∧ exec i s = .fault f := by
  unfold step at h
  split at h
  · cases h
  · cases h
  next w p rest hs =>
    split at h
    · cases h
    next i hd => exact ⟨w, p, rest, i, hs, hd, finish_eq_fault.mp h⟩

theorem step_ne_refused {r : Refusal} : step s ≠ .refused r := by
  intro h
  unfold step at h
  split at h
  · cases h
  · cases h
  · split at h
    · cases h
    · exact exec_ne_refused (finish_eq_refused.mp h)

/-! ### Exceptions outside `FAULT` and in it (rules R609, R610) -/

/-- Outside `FAULT` a command that answers an exception makes trap entry with its own word, whether a check raised it or
`FAIL` itself (rule R609). -/
theorem exec_eq_trapEntry (hf : s.phase ≠ .fault) (h : exec i s = .next t) (hr : t.response = some (.raised e)) :
    t = s.trapEntry e (encode i) := by
  rcases exec_eq_next.mp h with ⟨e', -, rfl⟩ | ⟨-, -, rfl⟩
  · simp only [State.raise_response, Option.some.injEq, Response.raised.injEq] at hr
    rw [hr, s.raise_of_not_fault hf]
  · obtain ⟨rfl, code, rfl⟩ := effect_response_eq_raised.mp hr
    rw [effect, s.raise_of_not_fault hf]

/-- In `FAULT` every command but `RDSR` and `CLRF` only answers PhaseError (rule R610). -/
theorem exec_of_fault (hf : s.phase = .fault) (hi : i ≠ .rdsr ∧ i ≠ .clrf) :
    exec i s = .next (s.answerRaised .phaseError) := by
  have hl : legalIn i s.phase ≠ true := by rw [hf, Ne, legalIn_fault, not_or]; exact hi
  rw [exec_of_failure (firstFailure_of_illegal (Bool.eq_false_of_not_eq_true hl)), s.raise_of_fault hf]

/-- From `FAULT` only `CLRF` goes to another phase (rules R501, R610). -/
theorem exec_of_leaves_fault (hf : s.phase = .fault) (h : exec i s = .next t) (ht : t.phase ≠ .fault) : i = .clrf := by
  rcases exec_eq_next.mp h with ⟨e, -, rfl⟩ | ⟨hnone, -, rfl⟩
  · exact absurd (s.raise_phase e _) ht
  · obtain ⟨hl, -, -⟩ := firstFailure_eq_none.mp hnone
    rw [hf, legalIn_fault] at hl
    rcases hl with rfl | rfl
    · rw [effect_phase] at ht
      exact absurd hf ht
    · rfl

/-- What a step on a decodable word leaves, the input taken (rule R306). -/
theorem step_of_exec (hs : s.host = .command w p :: rest) (hd : decode w = .ok i) (h : exec i s = .next t) :
    step s = .next { t with host := rest } := by
  rw [step_of_decode hs hd, h, finish, State.popHost_of_host ((exec_host h).trans hs)]

/-! ### `CLRF` (rule R501) -/

theorem exec_clrf (ho : s.offered = []) :
    exec .clrf s = .next ((if s.phase = .fault then s.clearFault else s).complete []) :=
  exec_of_checks rfl rfl rfl (by rw [ho]; rfl) rfl

end Machine

open Machine

/-- Settles O12: the checks passed say that the command is legal and well formed. -/
theorem stepStopsOnlyOnAMisframedPayload : Obligations.StepStopsOnlyOnAMisframedPayload := by
  refine ⟨fun s r => step_ne_refused, fun s f h => ?_⟩
  obtain ⟨w, p, rest, i, hs, hd, hx⟩ := step_eq_fault h
  obtain ⟨hnone, hlen, -⟩ := exec_eq_fault.mp hx
  obtain ⟨hl, hr, hw⟩ := firstFailure_eq_none.mp hnone
  rw [State.offered_of_host hs] at hlen
  exact ⟨w, p, rest, i, hs, hd, Instr.wellFormed_iff.mpr ⟨hr, hw⟩, hl, hlen⟩

/-- Settles O11: framing excludes the only stop, and the inputs left are among those to come before. -/
theorem stepNeverStopsOnFramedInput : Obligations.StepNeverStopsOnFramedInput := by
  intro s hframed
  cases hstep : step s with
  | next t =>
    refine ⟨t, rfl, fun h hh => hframed h ?_⟩
    rw [step_host hstep] at hh
    exact List.mem_of_mem_tail hh
  | fault f =>
    obtain ⟨w, p, rest, i, hs, hd, hwf, -, hlen⟩ := stepStopsOnlyOnAMisframedPayload.2 s f hstep
    have hin : FramedInput (.command w p) := hframed _ (by rw [hs]; exact List.mem_cons_self)
    exact absurd (hin i hd hwf) hlen
  | refused r => exact absurd hstep step_ne_refused

/-- Settles O7: what the step adds to the command is `popHost`. -/
theorem stepRunsTheDecodedCommand : Obligations.StepRunsTheDecodedCommand := by
  refine fun s w p rest i hs hd => ⟨State.offered_of_host hs, fun t ht => ⟨exec_host ht, step_of_exec hs hd ht⟩,
    fun f hf => ?_, fun r => exec_ne_refused⟩
  rw [step_of_decode hs hd, hf, finish]

/-- Settles O8: a reset event does not look at the phase (`step_of_reset`). -/
theorem resetEventGivesTheResetState : Obligations.ResetEventGivesTheResetState :=
  fun _ _ => step_of_reset

/-- Settles O9: `State.reset` field by field, and `STATUS` is the view of its phase and its `ERR`. -/
theorem resetStateIsZeroAndIdle : Obligations.ResetStateIsZeroAndIdle :=
  ⟨getElem_zeroState, State.reset_phase, State.reset_err, by decide, State.reset_errCmd, State.reset_response,
    State.reset_host⟩

/-- Settles O10: with nothing to take, `step` gives the state itself. -/
theorem engineWaitsWithoutInput : Obligations.EngineWaitsWithoutInput :=
  fun _ => step_of_nil

/-- Settles O17: a word without a row traps by itself; a command traps with its own word, which is the word received. -/
theorem trapEntryIsPrecise : Obligations.TrapEntryIsPrecise := by
  intro s t w p rest e hs hf ht hr
  cases hd : decode w with
  | error r =>
    rw [step_of_illegal_of_not_fault hs hd hf] at ht
    cases ht
    cases hr
    rfl
  | ok i =>
    obtain ⟨u, hu, rfl⟩ := exists_exec_of_step hs hd ht
    rw [State.popHost_of_host ((exec_host hu).trans hs), exec_eq_trapEntry hf hu hr, encode_eq_of_decode_eq_ok hd]
    rfl

/-- Settles O18: only the words of `RDSR` and `CLRF` decode to the two commands that are legal in `FAULT`. -/
theorem faultPhaseRefusesEveryOtherWord : Obligations.FaultPhaseRefusesEveryOtherWord := by
  refine fun s w p rest hs hf hrdsr hclrf => ⟨fun ⟨r, hd⟩ => step_of_illegal_of_fault hs hd hf, fun ⟨i, hd⟩ => ?_⟩
  have hw := encode_eq_of_decode_eq_ok hd
  have hi : i ≠ .rdsr ∧ i ≠ .clrf := by
    constructor
    · rintro rfl
      exact hrdsr hw.symm
    · rintro rfl
      exact hclrf hw.symm
  exact step_of_exec hs hd (exec_of_fault hf hi)

/-- Settles O19: every other step in `FAULT` waits, raises or runs a command that stays there. -/
theorem onlyClrfOrResetLeavesFault : Obligations.OnlyClrfOrResetLeavesFault := by
  intro s t hf hstep ht
  rcases step_cases hstep with ⟨-, rfl⟩ | ⟨rest, hs, -⟩ | ⟨w, p, rest, r, -, -, rfl⟩ | ⟨w, p, rest, i, u, hs, hd, hu, rfl⟩
  · exact absurd hf ht
  · exact ⟨rest, .inl hs⟩
  · exact absurd (s.raise_phase _ _) ht
  · obtain rfl := exec_of_leaves_fault hf hu ht
    obtain rfl := encode_eq_of_decode_eq_ok hd
    exact ⟨rest, .inr ⟨p, hs⟩⟩

/-- Settles O20: what `CLRF` clears in `FAULT` is all that reset gives. -/
theorem clrfInFaultGivesTheResetState : Obligations.ClrfInFaultGivesTheResetState := by
  intro s hf ho
  rw [exec_clrf ho, if_pos hf]
  rfl

/-- Settles O21: outside `FAULT` there is nothing to clear, so only the answer is left. -/
theorem clrfOutsideFaultChangesNothing : Obligations.ClrfOutsideFaultChangesNothing := by
  intro s hf ho
  rw [exec_clrf ho, if_neg hf, State.complete_eq]

end Sys2Proof

/-! What every step keeps: the consistency of the status registers (rules R105, R106, R609, R610, R707) and the lifecycle of
`PHASE` (rule R470). -/

namespace Sys2Proof

open Machine

namespace Consistent

variable {s t : State} {i : Instr} {e : Exc} {w : Word}

/-- Outside `FAULT` no exception is latched (rules R105, R106). -/
theorem err_eq_none (h : Consistent s) (hf : s.phase ≠ .fault) : s.err = none :=
  not_not.mp (mt h.err_iff_fault.mp hf)

/-- A state outside `FAULT` with `ERR` and `ERRCMD` clear that answered `OK` is consistent. -/
theorem of_ok {out : List Byte} (hf : t.phase ≠ .fault) (he : t.err = none) (hc : t.errCmd = 0)
    (hr : t.response = some (.ok out)) : Consistent t where
  err_iff_fault := by simp [he, hf]
  errCmd_zero := fun _ => hc
  fault_lanes := fun h => absurd h hf
  raised_fault := fun _ h => by simp [hr] at h
  explained := fun _ h => by simp [he] at h

/-- Trap entry with a word that raises the exception gives a consistent state, whatever the state before (rule R609). -/
theorem trapEntry (hx : Explains e w) : Consistent (s.trapEntry e w) where
  err_iff_fault := by simp
  errCmd_zero := by simp
  fault_lanes := by simp
  raised_fault := by simp
  explained := by simpa

/-- In `FAULT` a bare response changes nothing that consistency speaks of (rule R610). -/
theorem answer (h : Consistent s) (hf : s.phase = .fault) (r : Response) :
    Consistent { s with response := some r } where
  err_iff_fault := h.err_iff_fault
  errCmd_zero := h.errCmd_zero
  fault_lanes := h.fault_lanes
  raised_fault := fun _ _ => hf
  explained := h.explained

/-- An exception keeps consistency when, outside `FAULT`, its word is one that raises it (rules R609, R610). -/
theorem raise (h : Consistent s) (hx : s.phase ≠ .fault → Explains e w) : Consistent (s.raise e w) := by
  by_cases hf : s.phase = .fault
  · rw [s.raise_of_fault hf]
    exact h.answer hf _
  · rw [s.raise_of_not_fault hf]
    exact trapEntry (hx hf)

/-- The host's inputs are not part of what consistency speaks of. -/
theorem popHost (h : Consistent s) : Consistent s.popHost where
  err_iff_fault := h.err_iff_fault
  errCmd_zero := h.errCmd_zero
  fault_lanes := h.fault_lanes
  raised_fault := h.raised_fault
  explained := h.explained

/-- The state after reset, whatever the host sends next, is consistent (rules R112, R701). -/
theorem reset (rest : List HostInput) : Consistent { State.reset with host := rest } where
  err_iff_fault := by simp
  errCmd_zero := fun _ => rfl
  fault_lanes := fun _ => rfl
  raised_fault := by simp
  explained := by simp

/-- The exception of the first failing check is one that the command's word raises (rule R600). -/
theorem explains_of_firstFailure (hf : s.phase ≠ .fault) (h : firstFailure i s = some e) : Explains e (encode i) := by
  have hd : decode (encode i) = .ok i := decodeOfEncodeIsTheCommand i
  rcases firstFailure_eq_some.mp h with ⟨rfl, hl⟩ | ⟨rfl, -, hr⟩ | ⟨rfl, -, hr, hw⟩
  · exact ⟨i, s.phase, hd, hf, hl⟩
  · exact ⟨i, hd, hr⟩
  · exact ⟨i, hd, hr, hw⟩

/-- A completing command other than `FAIL` and `CLRF` leaves the phases outside `FAULT` to each other (rule R470). -/
theorem effect_phase_ne_fault {inp : List Byte} (hf : s.phase ≠ .fault) (hfail : ∀ code, i ≠ .fail code) :
    (effect i s inp).phase ≠ .fault := by
  rw [effect_phase]
  cases i with
  | fail code => exact absurd rfl (hfail code)
  | absorb len => dsimp only; split <;> simp
  | clrf => simp [hf]
  | init | squeeze len => simp
  | _ => exact hf

/-- A command that passes its checks keeps consistency. In `FAULT` it is `RDSR`, which only answers, or `CLRF`, which resets;
elsewhere `FAIL` makes trap entry and every other command completes with `ERR` and `ERRCMD` as they were. -/
theorem of_effect {inp : List Byte} (h : Consistent s) (hl : legalIn i s.phase = true) :
    Consistent (effect i s inp) := by
  by_cases hf : s.phase = .fault
  · rw [hf, legalIn_fault] at hl
    rcases hl with rfl | rfl
    · simp only [effect]
      exact h.answer hf (.ok (statusBytes s))
    · simp only [effect, if_pos hf]
      exact of_ok (out := []) (by simp) rfl rfl rfl
  have herr := h.err_eq_none hf
  rcases effect_response i s inp with ⟨code, rfl, -⟩ | ⟨hfail, out, hr⟩
  · exact h.raise fun _ => ⟨code, decodeOfEncodeIsTheCommand _⟩
  by_cases hc : i = .clrf
  · subst hc
    simp only [effect, if_neg hf]
    exact of_ok (out := []) hf herr (h.errCmd_zero herr) rfl
  obtain ⟨he, hcmd⟩ := effect_err_errCmd (s := s) inp hc hfail
  exact of_ok (effect_phase_ne_fault hf hfail) (he.trans herr) (hcmd.trans (h.errCmd_zero herr)) hr

/-- Every command keeps consistency. -/
theorem of_exec (h : Consistent s) (hx : exec i s = .next t) : Consistent t := by
  rcases exec_eq_next.mp hx with ⟨e, he, rfl⟩ | ⟨hnone, -, rfl⟩
  · exact h.raise fun hf => explains_of_firstFailure hf he
  · exact h.of_effect (firstFailure_eq_none.mp hnone).1

end Consistent

/-- Settles O22, by what the host sent: each of the four cases has its own lemma. -/
theorem stepKeepsConsistent : Obligations.StepKeepsConsistent := by
  intro s t h hstep
  rcases step_cases hstep with ⟨-, rfl⟩ | ⟨rest, -, rfl⟩ | ⟨w, p, rest, r, -, hd, rfl⟩ | ⟨w, p, rest, i, u, -, -, hu, rfl⟩
  · exact h
  · exact Consistent.reset rest
  · have hx : Explains .illegalCommand w := ⟨r, hd⟩
    exact (h.raise fun _ => hx).popHost
  · exact (h.of_exec hu).popHost

/-- Settles O23: the case of `Consistent.reset` with no input to come. -/
theorem resetStateIsConsistent : Obligations.ResetStateIsConsistent := Consistent.reset []

namespace Machine

variable {s t : State} {i : Instr}

/-- The ways a command changes `PHASE` (rule R470): the four commands that write it when they complete, and an exception. -/
theorem exec_phase_cases (h : exec i s = .next t) (hne : t.phase ≠ s.phase) :
    s.phase = .idle ∧ i = .init ∧ t.phase = .absorb ∨
    s.phase = .absorb ∧ (∃ len : Imm, len.toNat < 168 ∧ i = .absorb len) ∧ t.phase = .squeeze ∨
    s.phase = .squeeze ∧ (∃ len, i = .squeeze len) ∧ t.phase = .idle ∨
    s.phase ≠ .fault ∧ (∃ e, t.response = some (.raised e)) ∧ t.phase = .fault ∨
    s.phase = .fault ∧ i = .clrf ∧ t.phase = .idle := by
  rcases exec_eq_next.mp h with ⟨e, -, rfl⟩ | ⟨hnone, -, rfl⟩
  · rw [State.raise_phase] at hne
    exact .inr (.inr (.inr (.inl ⟨hne.symm, ⟨e, s.raise_response _ _⟩, s.raise_phase _ _⟩)))
  obtain ⟨hl, hr, -⟩ := firstFailure_eq_none.mp hnone
  have hphase := effect_phase i s s.offered
  rw [hphase] at hne ⊢
  cases i with
  | init =>
    have hp : s.phase = .idle := beq_iff_eq.mp hl
    exact .inl ⟨hp, rfl, rfl⟩
  | absorb len =>
    have hp : s.phase = .absorb := beq_iff_eq.mp hl
    have hle : len.toNat ≤ 168 := of_decide_eq_true hr
    have hlen : len.toNat ≠ 168 := fun h168 => hne (by simp [h168, hp])
    exact .inr (.inl ⟨hp, ⟨len, by omega, rfl⟩, if_neg hlen⟩)
  | squeeze len => exact .inr (.inr (.inl ⟨legalIn_squeeze.mp hl, ⟨len, rfl⟩, rfl⟩))
  | fail code =>
    have hr : (effect (.fail code) s s.offered).response = some (.raised .streamFailure) :=
      effect_response_eq_raised.mpr ⟨rfl, code, rfl⟩
    exact .inr (.inr (.inr (.inl ⟨hne.symm, ⟨_, hr⟩, rfl⟩)))
  | clrf =>
    have hf : s.phase = .fault := by
      by_contra hf
      simp [hf] at hne
    exact .inr (.inr (.inr (.inr ⟨hf, rfl, if_pos hf⟩)))
  | _ => exact absurd rfl hne

end Machine

/-- Settles O24: a reset makes the phase `IDLE`, a word without a row raises, and a command changes the phase in the ways of
`exec_phase_cases`. -/
theorem phaseChangesFollowTheLifecycle : Obligations.PhaseChangesFollowTheLifecycle := by
  intro s t hstep hne
  rcases step_cases hstep with ⟨-, rfl⟩ | ⟨rest, hs, rfl⟩ | ⟨w, p, rest, r, hs, hd, rfl⟩ | ⟨w, p, rest, i, u, hs, hd, hu, rfl⟩
  · exact absurd rfl hne
  · exact .inl ⟨rest, hs, rfl⟩
  · rw [State.popHost_phase, State.raise_phase] at hne
    exact .inr ⟨w, p, rest, hs,
      .inr (.inr (.inr (.inl ⟨hne.symm, ⟨_, s.raise_response _ _⟩, s.raise_phase _ _⟩)))⟩
  · refine .inr ⟨w, p, rest, hs, ?_⟩
    simpa [hd] using exec_phase_cases hu hne

end Sys2Proof

/-! What a command may read and write: the lanes of a digest in progress, the capacity lanes, the output and the commands
without side effects (rules R111, R206, R303, R476). -/

namespace Sys2Proof

namespace Machine

variable {i : Instr} {s t : State} {inp out : List Byte}

/-- A command that passes its checks completes or stops, by its payload's length (rules R303, R306). -/
theorem exec_eq_ite (h : firstFailure i s = none) :
    exec i s = if s.offered.length = i.inBytes then .next (effect i s s.offered) else .fault .payloadFraming := by
  rw [exec_eq_checked, checked, h]

/-! ### The lanes of a digest in progress (rule R111) -/

/-- An exception does not depend on the lanes. -/
theorem raise_withLanes (s : State) (L : Lanes) (e : Exc) (w : Word) :
    ∃ L', State.raise { s with lanes := L } e w = { s.raise e w with lanes := L' } := by
  by_cases hf : s.phase = .fault
  · exact ⟨L, by simp [State.raise, hf, State.answerRaised]⟩
  · exact ⟨zeroState, by simp [State.raise, hf, State.trapEntry]⟩

/-- `RDST` and `SQUEEZE` are the only commands whose effect shows the lanes outside the lanes. -/
theorem effect_withLanes (s : State) (L : Lanes) (inp : List Byte) (hrdst : ∀ len, i ≠ .rdst len)
    (hsqueeze : ∀ len, i ≠ .squeeze len) :
    ∃ L', effect i { s with lanes := L } inp = { effect i s inp with lanes := L' } := by
  cases i with
  | rdst len => exact absurd rfl (hrdst len)
  | squeeze len => exact absurd rfl (hsqueeze len)
  | absorb len =>
    simp only [effect]
    split <;> exact ⟨_, rfl⟩
  | fail code => exact raise_withLanes s L _ _
  | clrf =>
    simp only [effect]
    split <;> exact ⟨_, rfl⟩
  | _ => exact ⟨_, rfl⟩

/-- The checks look at the phase and the operand, not at the lanes. -/
theorem firstFailure_withLanes (i : Instr) (s : State) (L : Lanes) :
    firstFailure i { s with lanes := L } = firstFailure i s := rfl

/-! ### One block of output (rule R476) -/

/-- Up to 168 bytes are cut from the rate lanes as they stand, before any permutation (rule R474). -/
theorem squeezePasses_take_of_le (S : Lanes) {n : Nat} (h : n ≤ 168) :
    (squeezePasses (passCount n) S).1.take n = (extractBlock S).take n := by
  have hone : passCount n ≤ passCount 168 := passCount_le_passCount h
  have hlen : n ≤ (squeezePasses (passCount n) S).1.length := (le_passCount n).trans_eq (squeezePasses_length _ _).symm
  obtain ⟨k, hk⟩ := Nat.exists_eq_add_of_le hone
  have hblock : (squeezePasses (passCount 168) S).1 = extractBlock S := List.append_nil _
  rw [← hblock, hk, squeezePasses_add, List.take_append_of_le_length hlen]

/-! ### The output (rules R303, R305) -/

/-- A command that passes its checks and answers `OK` gives the output its word states. -/
theorem effect_output_length (hnone : firstFailure i s = none)
    (hr : (effect i s inp).response = some (.ok out)) : out.length = i.outBytes := by
  obtain ⟨-, hrange, hlanes⟩ := firstFailure_eq_none.mp hnone
  cases i with
  | rdst len =>
    have hle : len.toNat ≤ 200 := of_decide_eq_true hrange
    have hmod : len.toNat % 8 = 0 := beq_iff_eq.mp hlanes
    cases hr
    simp [Instr.outBytes]
    omega
  | squeeze len =>
    cases hr
    rw [List.length_take, squeezePasses_length, Nat.min_eq_left (le_passCount _)]
    rfl
  | pad len =>
    cases hr
    exact pad_length inp
  | absorb len =>
    simp only [effect] at hr
    split at hr <;> cases hr <;> rfl
  | fail code => simp [effect] at hr
  | _ =>
    cases hr
    rfl

/-- An `OK` response has the output length the word states, whatever the command. -/
theorem exec_output_length (h : exec i s = .next t) (hr : t.response = some (.ok out)) : out.length = i.outBytes := by
  rcases exec_eq_next.mp h with ⟨e, -, rfl⟩ | ⟨hnone, -, rfl⟩
  · simp at hr
  · exact effect_output_length hnone hr

/-! ### The commands without side effects (rule R206) -/

/-- The read commands and `PAD`, with operand `n` where they have one. -/
def pureCommands (n : Imm) : List Instr := [.rdst n, .rdrho n, .rdrcb n, .rdrc n, .rdsr, .pad n]

/-- A pure command only answers. -/
theorem effect_of_mem_pureCommands {n : Imm} (h : i ∈ pureCommands n) :
    ∃ b, effect i s inp = { s with response := some (.ok b) } := by
  revert i
  simp only [pureCommands, List.forall_mem_cons]
  exact ⟨⟨_, rfl⟩, ⟨_, rfl⟩, ⟨_, rfl⟩, ⟨_, rfl⟩, ⟨_, rfl⟩, ⟨_, rfl⟩, nofun⟩

/-- The answer of a pure command does not depend on the last response. -/
theorem effect_withResponse {n : Imm} (h : i ∈ pureCommands n) (r : Option Response) :
    effect i { s with response := r } inp = effect i s inp := by
  revert i
  simp only [pureCommands, List.forall_mem_cons]
  exact ⟨rfl, rfl, rfl, rfl, rfl, rfl, nofun⟩

end Machine

open Machine

/-- Settles O25: a command that raises makes trap entry, and the commands that pass their checks in a digest are none of those
that show the lanes. -/
theorem digestInProgressIsUnobservable : Obligations.DigestInProgressIsUnobservable := by
  intro s t L i hp ht
  rcases exec_eq_next.mp ht with ⟨e, he, rfl⟩ | ⟨hnone, hlen, rfl⟩
  · rw [exec_of_failure ((firstFailure_withLanes i s L).trans he)]
    obtain ⟨L', hL'⟩ := raise_withLanes s L e (encode i)
    exact ⟨L', congrArg _ hL'⟩
  · obtain ⟨hl, -, -⟩ := firstFailure_eq_none.mp hnone
    have hrdst : ∀ len, i ≠ .rdst len := by
      rintro len rfl
      have hidle : s.phase = .idle := beq_iff_eq.mp hl
      simp [hidle] at hp
    have hsqueeze : ∀ len, i ≠ .squeeze len := by
      rintro len rfl
      have hsq : s.phase = .squeeze := legalIn_squeeze.mp hl
      simp [hsq] at hp
    rw [exec_of_none ((firstFailure_withLanes i s L).trans hnone) hlen]
    obtain ⟨L', hL'⟩ := effect_withLanes s L s.offered hrdst hsqueeze
    exact ⟨L', congrArg _ hL'⟩

/-- Settles O26: the output is cut from the rate lanes, and the lanes are zero afterwards. -/
theorem oneBlockOfOutputReadsNoCapacityLane : Obligations.OneBlockOfOutputReadsNoCapacityLane := by
  intro s L len hp hlen hagree
  have hnone : firstFailure (.squeeze len) s = none :=
    firstFailure_eq_none.mpr ⟨legalIn_squeeze.mpr hp, Instr.inRange_squeeze len, rfl⟩
  have hblock : extractBlock s.lanes = extractBlock L := extractBlock_congr hagree
  have heffect : effect (.squeeze len) s s.offered = effect (.squeeze len) { s with lanes := L } s.offered := by
    simp only [effect, squeezePasses_take_of_le _ hlen, hblock]
    rfl
  rw [exec_eq_ite hnone, exec_eq_ite ((firstFailure_withLanes _ s L).trans hnone), heffect]
  rfl

/-- Settles O27: the statement's table is `Instr.outBytes`. -/
theorem outputHasTheStatedLength : Obligations.OutputHasTheStatedLength := by
  intro s t i out ht hr
  rw [exec_output_length ht hr]
  cases i <;> rfl

/-- Settles O28: the checks and the answer are the same in the state that differs in the response only. -/
theorem pureCommandsChangeOnlyTheResponse : Obligations.PureCommandsChangeOnlyTheResponse := by
  intro s t n out i hi ht hr
  rcases exec_eq_next.mp ht with ⟨e, -, rfl⟩ | ⟨hnone, hlen, rfl⟩
  · simp at hr
  obtain ⟨b, hb⟩ := effect_of_mem_pureCommands (s := s) (inp := s.offered) hi
  rw [hb] at hr ⊢
  cases hr
  have hagain : exec i { s with response := some (.ok out) } = .next (effect i { s with response := _ } s.offered) :=
    exec_of_none hnone hlen
  rw [hagain, effect_withResponse hi, hb]
  exact ⟨rfl, rfl⟩

end Sys2Proof

/-! The lane codec: its round trip, and `LDST` and `RDST` on the state byte view (rules R402 to R404). -/

namespace Sys2Proof

namespace Machine

/-- Byte sequences of the same length with the same bytes are the same. -/
theorem bytes_ext {b c : List Byte} (hlen : b.length = c.length) (h : ∀ n < b.length, b.getD n 0 = c.getD n 0) :
    b = c := by
  refine List.ext_getElem hlen fun n hb hc => ?_
  rw [List.getElem_eq_getD 0, List.getElem_eq_getD 0, h n hb]

/-! ### The round trip (rule R402) -/

/-- `bytesFromLanes_getElem?_div` for a read with a default (rule R401). -/
theorem bytesFromLanes_getD {L : List Lane} {n : Nat} (h : n / 8 < L.length) :
    (bytesFromLanes L).getD n 0 = laneByte (L.getD (n / 8) 0) (n % 8) := by
  simp [List.getD_eq_getElem?_getD, bytesFromLanes_getElem?_div, h]

theorem bytesFromLanes_laneGroups {b : List Byte} (h : b.length % 8 = 0) : bytesFromLanes (laneGroups b) = b := by
  have hlen : (bytesFromLanes (laneGroups b)).length = b.length := by
    rw [bytesFromLanes_length, laneGroups_length]
    omega
  refine bytes_ext hlen fun n hn => ?_
  have hgroup : n / 8 < b.length / 8 := by omega
  rw [bytesFromLanes_getD (hgroup.trans_eq (laneGroups_length b).symm), laneByte_laneGroups_getD hgroup]

theorem laneGroups_bytesFromLanes (L : List Lane) : laneGroups (bytesFromLanes L) = L := by
  have hlen : (laneGroups (bytesFromLanes L)).length = L.length := by
    rw [laneGroups_length, bytesFromLanes_length]
    omega
  refine List.ext_getElem hlen fun j hj hL => ?_
  rw [laneGroups_getElem]
  refine lane_ext_bytes fun k hk => ?_
  rw [laneByte_laneOfBytes _ _ _ hk, List.getD_eq_getElem?_getD, bytesFromLanes_getElem? _ _ _ hk,
    List.getElem?_eq_getElem hL]
  rfl

/-! ### The state byte view (rules R202, R403) -/

/-- A state is the 200 bytes of its view. -/
theorem lanes_ext_view {S T : Lanes} (h : ∀ n < 200, (stateView S).getD n 0 = (stateView T).getD n 0) : S = T := by
  ext j hj : 1
  refine lane_ext_bytes fun k hk => ?_
  have hn : 8 * j + k < 200 := by omega
  have hview := h _ hn
  have hdiv : (8 * j + k) / 8 = j := by omega
  have hmod : (8 * j + k) % 8 = k := by omega
  simpa only [stateView_getD _ hn, hdiv, hmod] using hview

/-- Whole lanes written from bytes replace the first bytes of the view and leave all others (rule R403). -/
theorem stateView_writeLanes (S : Lanes) {b : List Byte} (hb : b.length % 8 = 0) {n : Nat} (hn : n < 200) :
    (stateView (writeLanes S (laneGroups b))).getD n 0 =
      if n < b.length then b.getD n 0 else (stateView S).getD n 0 := by
  rw [stateView_getD _ hn, stateView_getD _ hn, writeLanes_getElem_eq_ite, laneGroups_length]
  by_cases h : n < b.length
  · have hgroup : n / 8 < b.length / 8 := by omega
    rw [if_pos hgroup, if_pos h, laneByte_laneGroups_getD hgroup]
  · have hgroup : ¬ n / 8 < b.length / 8 := by omega
    rw [if_neg hgroup, if_neg h]

/-- `MemWrite(0, |v|, v)` replaces the first `|v|` bytes of the view, whatever their number (rule R9). -/
theorem stateView_memWrite_zero (S : Lanes) {v : List Byte} (hv : v.length ≤ 200) {n : Nat} (hn : n < 200) :
    (stateView (memWrite S 0 v)).getD n 0 = if n < v.length then v.getD n 0 else (stateView S).getD n 0 := by
  have hlen : ([] ++ v ++ (stateView S).drop (0 + v.length)).length = 200 := by
    simp
    omega
  rw [memWrite, List.take_zero, stateView_writeLanes S (by rw [hlen]) hn, hlen, if_pos hn, List.nil_append]
  by_cases h : n < v.length
  · rw [if_pos h, List.getD_append _ _ _ _ h]
  · rw [if_neg h, List.getD_append_right _ _ _ _ (Nat.le_of_not_lt h)]
    simp [List.getD_eq_getElem?_getD, List.getElem?_drop, Nat.add_sub_of_le (Nat.le_of_not_lt h)]

/-- `MemRead(0, m)` reads the bytes of the view (rule R9). -/
theorem memRead_zero_getD (S : Lanes) {m n : Nat} (h : n < m) : (memRead S 0 m).getD n 0 = (stateView S).getD n 0 := by
  simp [memRead, List.getD_eq_getElem?_getD, h]

theorem memRead_zero_length (S : Lanes) {m : Nat} (h : m ≤ 200) : (memRead S 0 m).length = m := by
  simpa [memRead] using h

/-! ### The two commands in `IDLE` (rules R403, R404) -/

variable {s : State} {len : Imm}

/-- A legal length passes the checks of the raw codec (rules R601, R605). -/
theorem wholeLanes_of_mod {i : Instr} (hi : i = .ldst len ∨ i = .rdst len) (h : len.toNat % 8 = 0) :
    i.wholeLanes = true := by
  rcases hi with rfl | rfl <;> exact beq_iff_eq.mpr h

theorem exec_ldst (hp : s.phase = .idle) (hle : len.toNat ≤ 200) (hmod : len.toNat % 8 = 0)
    (ho : s.offered.length = len.toNat) :
    exec (.ldst len) s =
      .next { s with lanes := writeLanes s.lanes (laneGroups s.offered), response := some (.ok []) } :=
  exec_of_checks (by rw [hp]; rfl) ((Instr.inRange_rawCodec (.inl rfl)).mpr hle) (wholeLanes_of_mod (.inl rfl) hmod) ho
    (s.setLanes_complete _ [])

theorem exec_rdst (hp : s.phase = .idle) (hle : len.toNat ≤ 200) (hmod : len.toNat % 8 = 0) (ho : s.offered = []) :
    exec (.rdst len) s = .next { s with response := some (.ok (memRead s.lanes 0 len.toNat)) } := by
  have hread : bytesFromLanes (s.lanes.toList.take (len.toNat / 8)) = memRead s.lanes 0 len.toNat := by
    rw [bytesFromLanes_take_eq_memRead, Nat.mul_div_cancel' (Nat.dvd_of_mod_eq_zero hmod)]
  rw [← hread]
  exact exec_of_checks (by rw [hp]; rfl) ((Instr.inRange_rawCodec (.inr rfl)).mpr hle)
    (wholeLanes_of_mod (.inr rfl) hmod) (by rw [ho]; rfl) (s.complete_eq _)

end Machine

open Machine

/-- Settles O30: on a whole number of groups the lanes are `laneGroups`, which `bytesFromLanes` inverts on both sides. -/
theorem codecRoundTripIsLossless : Obligations.CodecRoundTripIsLossless := by
  refine ⟨fun b hb => ?_, fun L => ?_⟩
  · rw [lanesFromBytes_eq_some hb, Option.map_some, bytesFromLanes_laneGroups hb]
  · rw [lanesFromBytes_eq_some (by simp), laneGroups_bytesFromLanes]

/-- Settles O31: writing the payload's lanes and `MemWrite` leave the same bytes in the view. -/
theorem ldstReplacesTheFirstBytes : Obligations.LdstReplacesTheFirstBytes := by
  intro s len hp hle hmod ho
  have hb : s.offered.length % 8 = 0 := by rw [ho, hmod]
  refine ⟨_, exec_ldst hp hle hmod ho, fun n hn => ?_, lanes_ext_view fun n hn => ?_⟩
  · rw [stateView_writeLanes _ hb hn, ho]
  · rw [stateView_writeLanes _ hb hn, stateView_memWrite_zero _ (ho.trans_le hle) hn]

/-- Settles O32: the bytes read are those of the view, lane by lane. -/
theorem rdstGivesTheFirstBytes : Obligations.RdstGivesTheFirstBytes := by
  intro s len hp hle hmod ho
  refine ⟨_, exec_rdst hp hle hmod ho, memRead_zero_length _ hle, rfl, fun n hn hlane => ?_⟩
  rw [memRead_zero_getD _ hn, stateView_getD _ (by omega), laneByte]

end Sys2Proof

/-! The tables of rotation offsets and round constants, and the commands that read them (rules R411 to R426). -/

namespace Sys2Proof

namespace Machine

variable {s : State} {n : Imm}

/-- A command that takes no payload, passes its checks and whose effect is to answer, answers and changes nothing else. -/
theorem exec_of_answers {i : Instr} {out : List Byte} (hl : legalIn i s.phase = true) (hr : i.inRange = true)
    (hw : i.wholeLanes = true) (hb : i.inBytes = 0) (ho : s.offered = []) (he : effect i s s.offered = s.complete out) :
    exec i s = .next { s with response := some (.ok out) } :=
  exec_of_checks hl hr hw (by rw [ho, hb]; rfl) he

theorem exec_rdrho (hf : s.phase ≠ .fault) (hn : n.toNat ≤ 24) (ho : s.offered = []) :
    exec (.rdrho n) s = .next { s with response := some (.ok [(rhoTable.getD n.toNat 0).setWidth 8]) } :=
  exec_of_answers ((legalIn_of_mem_unlessFault (n := n) (by simp [unlessFault])).mpr hf) (decide_eq_true hn) rfl rfl ho rfl

theorem exec_rdrcb (hf : s.phase ≠ .fault) (ho : s.offered = []) :
    exec (.rdrcb n) s = .next { s with response := some (.ok [if rcBit n.toNat then 0x01 else 0x00]) } :=
  exec_of_answers ((legalIn_of_mem_unlessFault (n := n) (by simp [unlessFault])).mpr hf) (Instr.inRange_rdrcb n) rfl rfl ho
    rfl

theorem exec_rdrc (hf : s.phase ≠ .fault) (hn : n.toNat ≤ 23) (ho : s.offered = []) :
    exec (.rdrc n) s = .next { s with response := some (.ok (laneBytes (roundConstant n.toNat))) } :=
  exec_of_answers ((legalIn_of_mem_unlessFault (n := n) (by simp [unlessFault])).mpr hf) (decide_eq_true hn) rfl rfl ho
    (by rw [effect, bytesFromLanes_cons, bytesFromLanes_nil, List.append_nil])

/-! ### The register `LF` (rules R420, R421) -/

/-- The register after `n` iterations is the `n`-th iterate of the step from 0x01. -/
theorem lfsrAfter_eq_iterate (n : Nat) : lfsrAfter n = lfsrStep^[n] 0x01 := by
  induction n with
  | zero => rfl
  | succ n ih => rw [lfsrAfter, ih, Function.iterate_succ_apply']

/-- Doubling modulo 256, with the taps XORed in when bit 7 was one (rule R420). -/
theorem lfsrStep_eq_ite (lf : BitVec 8) :
    lfsrStep lf = if lf.toNat < 128 then BitVec.ofNat 8 (2 * lf.toNat)
      else BitVec.ofNat 8 (2 * lf.toNat) ^^^ 0x71 := by
  revert lf
  decide +kernel

theorem lfsrStep_isPeriodicPt : Function.IsPeriodicPt lfsrStep 255 0x01 := by
  show lfsrStep^[255] 0x01 = 0x01
  decide +kernel

/-- The largest proper divisors of 255 = 3 * 5 * 17 are no periods, so no proper divisor is. -/
theorem lfsrStep_minimalPeriod : Function.minimalPeriod lfsrStep 0x01 = 255 := by
  have hdvd := lfsrStep_isPeriodicPt.minimalPeriod_dvd
  have hnot : ∀ m ∈ [85, 51, 15], ¬ Function.IsPeriodicPt lfsrStep m 0x01 := by
    unfold Function.IsPeriodicPt Function.IsFixedPt
    decide +kernel
  have hdivisors : ∀ d ∈ Nat.divisors 255, d = 255 ∨ ∃ m ∈ [85, 51, 15], d ∣ m := by decide +kernel
  rcases hdivisors _ (Nat.mem_divisors.mpr ⟨hdvd, by decide⟩) with h | ⟨m, hm, hd⟩
  · exact h
  · exact absurd ((Function.isPeriodicPt_minimalPeriod _ _).trans_dvd hd) (hnot m hm)

/-- Reducing the iteration count modulo the period gives the same bit (rule R421). -/
theorem rcBit_eq_iterate (t : Nat) : rcBit t = (lfsrStep^[t] 0x01).getLsbD 0 := by
  rw [rcBit, lfsrAfter_eq_iterate, Config.lfsrPeriod_eq, lfsrStep_isPeriodicPt.iterate_mod_apply]

/-- `RDRC` reads whatever table lists the round constants (rules R424, R426). -/
theorem exists_row_exec_rdrc {T : List (Nat × Lane × List Nat)}
    (hT : ∀ ir < 24, ∃ row ∈ T, row.1 = ir ∧ row.2.1 = roundConstant ir ∧
      ∀ j ≤ 6, rcBit (j + 7 * ir) = true ↔ j ∈ row.2.2)
    (hf : s.phase ≠ .fault) (hn : n.toNat ≤ 23) (ho : s.offered = []) :
    ∃ row ∈ T, row.1 = n.toNat ∧
      exec (.rdrc n) s = .next { s with response := some (.ok (laneBytes row.2.1)) } ∧
      ∀ j ≤ 6, rcBit (j + 7 * n.toNat) = true ↔ j ∈ row.2.2 := by
  obtain ⟨row, hmem, hindex, hconst, hbits⟩ := hT n.toNat (Nat.lt_succ_of_le hn)
  refine ⟨row, hmem, hindex, ?_, hbits⟩
  rw [hconst, exec_rdrc hf hn ho]

end Machine

open Machine

/-- Settles O33: the table as the recurrence fills it. -/
theorem rotationOffsetsAreTheTable : Obligations.RotationOffsetsAreTheTable := by
  unfold Obligations.RotationOffsetsAreTheTable
  rw [rhoTable_toList]
  decide

/-- Settles O35: the byte is the table's entry, whose six bits it holds. -/
theorem rdrhoGivesTheOffset : Obligations.RdrhoGivesTheOffset := by
  intro s i hf hi ho
  refine ⟨_, exec_rdrho hf hi ho, ?_⟩
  have hlt : i.toNat < 25 := Nat.lt_succ_of_le hi
  have hbyte : rhoTable[i.toNat].toNat < 2 ^ 8 := rhoTable[i.toNat].isLt.trans (by decide)
  rw [← rotationOffsetsAreTheTable.1]
  simpa [List.getD_eq_getElem?_getD, Vector.getD, hlt] using hbyte

/-- Settles O36: the reduction modulo the period does not change the bit. -/
theorem rdrcbGivesTheUnreducedBit : Obligations.RdrcbGivesTheUnreducedBit := by
  intro s t hf ho
  rw [← rcBit_eq_iterate]
  exact exec_rdrcb hf ho

/-- Settles O37: an earlier return would be a smaller period. -/
theorem lfsrStepShiftsAndHasPeriod255 : Obligations.LfsrStepShiftsAndHasPeriod255 := by
  refine ⟨lfsrStep_eq_ite, lfsrStep_isPeriodicPt, fun n hpos hlt hn => ?_⟩
  have hle : Function.minimalPeriod lfsrStep 0x01 ≤ n := Function.IsPeriodicPt.minimalPeriod_le hpos hn
  rw [lfsrStep_minimalPeriod] at hle
  omega

/-- Settles O39: the printed table lists the round constants with their bits. -/
theorem rdrcGivesTheTableConstant : Obligations.RdrcGivesTheTableConstant :=
  fun _ _ => exists_row_exec_rdrc (by decide +kernel)

end Sys2Proof

/-! The padding encoder is injective (rule R461); the sponge controller in its legal phases (rules R472 to R474); the status
registers as `RDSR` gives them (rules R105, R500). -/

namespace Sys2Proof

namespace Machine

variable {s : State} {len : Imm} {c d : List Byte}

/-! ### Padding (rule R461) -/

/-- The mark after the chunk tells a shorter chunk from a longer one: where the longer chunk ends, the block of the shorter
one has no mark any more. -/
theorem pad_ne_of_length_lt (hd : d.length ≤ 167) (h : c.length < d.length) : pad c ≠ pad d := by
  intro heq
  have hmark : padByte c d.length = padByte d d.length := by
    rw [← pad_getD c (Nat.lt_succ_of_le hd), ← pad_getD d (Nat.lt_succ_of_le hd), heq]
  rcases Nat.lt_or_eq_of_le hd with hlast | hlast
  · rw [padByte_of_length_lt h hlast, padByte_length (Nat.le_of_lt_succ hlast)] at hmark
    exact absurd hmark (by decide)
  · rw [hlast, padByte_last (by omega), padByte_last_shared hlast] at hmark
    exact absurd hmark (by decide)

/-- Chunks of the same length stand unchanged at the start of their blocks. -/
theorem eq_of_pad_eq_of_length_eq (hc : c.length ≤ 167) (hlen : c.length = d.length) (h : pad c = pad d) : c = d := by
  refine bytes_ext hlen fun k hk => ?_
  have hblock : k < 168 := by omega
  rw [← padByte_of_lt_length hc hk, ← padByte_of_lt_length (hlen ▸ hc) (hlen ▸ hk), ← pad_getD c hblock,
    ← pad_getD d hblock, h]

/-! ### The sponge controller (rules R472 to R474) -/

theorem exec_init (hp : s.phase = .idle) (ho : s.offered = []) :
    exec .init s = .next { s with lanes := zeroState, phase := .absorb, response := some (.ok []) } :=
  exec_of_checks (by rw [hp]; rfl) rfl rfl (by rw [ho]; rfl) (s.setLanes_setPhase_complete _ _ _)

/-- What a legal `ABSORB` does is decided by its length alone (rule R473). -/
theorem exec_absorb (hp : s.phase = .absorb) (hle : len.toNat ≤ 168) (ho : s.offered.length = len.toNat) :
    exec (.absorb len) s = .next (effect (.absorb len) s s.offered) :=
  exec_of_checks (by rw [hp]; rfl) (decide_eq_true hle) rfl ho rfl

theorem exec_absorb_full (hp : s.phase = .absorb) (hlen : len.toNat = 168) (ho : s.offered.length = 168) :
    exec (.absorb len) s = .next { s with lanes := absorbBlock s.lanes s.offered, response := some (.ok []) } := by
  rw [exec_absorb hp hlen.le (ho.trans hlen.symm), effect, Config.rateBytes_eq, if_pos hlen,
    State.setLanes_setPhase_complete, ← hp]

theorem exec_absorb_short (hp : s.phase = .absorb) (hlen : len.toNat < 168) (ho : s.offered.length = len.toNat) :
    exec (.absorb len) s = .next
      { s with lanes := absorbBlock s.lanes (pad s.offered), phase := .squeeze, response := some (.ok []) } := by
  rw [exec_absorb hp hlen.le ho, effect, Config.rateBytes_eq, if_neg hlen.ne, State.setLanes_setPhase_complete]

theorem exec_squeeze (hp : s.phase = .squeeze) (ho : s.offered = []) :
    exec (.squeeze len) s = .next
      { s with lanes := zeroState, phase := .idle,
               response := some (.ok ((squeezePasses (passCount len.toNat) s.lanes).1.take len.toNat)) } :=
  exec_of_checks (legalIn_squeeze.mpr hp) (Instr.inRange_squeeze len) rfl (by rw [ho]; rfl) rfl

/-- Byte `k` of the output is byte `k mod 168` of the view after `k div 168` permutations (rule R474). -/
theorem squeezePasses_take_getD (S : Lanes) {n k : Nat} (h : k < n) :
    ((squeezePasses (passCount n) S).1.take n).getD k 0 = (stateView (keccakF^[k / 168] S)).getD (k % 168) 0 := by
  have hbyte : k % 168 < 168 := Nat.mod_lt k (by decide)
  rw [← memRead_zero_getD _ hbyte, ← extractBlock_eq_memRead, List.getD_eq_getElem?_getD, List.getElem?_take, if_pos h,
    squeezePasses_getElem? _ S (h.trans_le (le_passCount n)), List.getD_eq_getElem?_getD]

/-! ### The status registers (rules R105, R500) -/

/-- Byte `k` of a word is its field of eight bits from bit `8k` (rule R203). -/
theorem wordByte_eq_extractLsb' (w : Word) (k : Nat) : wordByte w k = w.extractLsb' (8 * k) 8 := by
  ext j
  simp [wordByte]

/-- `STATUS = PHASE + 16*ERR`, which fits one byte, low byte first (rule R105). -/
theorem wordByte_status (p : BitVec 2) (e : BitVec 4) :
    (List.range 4).map (wordByte (0#24 ++ e ++ 0#2 ++ p)) = [BitVec.ofNat 8 (p.toNat + 16 * e.toNat), 0, 0, 0] := by
  revert p e
  decide

/-- The eight bytes of `RDSR` (rule R500). -/
theorem statusBytes_eq (s : State) :
    statusBytes s = [BitVec.ofNat 8 (s.phase.code.toNat + 16 * (errCode s.err).toNat), 0, 0, 0,
      s.errCmd.extractLsb' 0 8, s.errCmd.extractLsb' 8 8, s.errCmd.extractLsb' 16 8, s.errCmd.extractLsb' 24 8] := by
  rw [statusBytes, statusWord, wordByte_status]
  simp [List.range_succ, wordByte_eq_extractLsb']

/-- A next state of `RDSR` answers `OK` with the status bytes in every phase (rule R500). -/
theorem exec_rdsr_response {t : State} (h : exec .rdsr s = .next t) : t.response = some (.ok (statusBytes s)) := by
  rcases exec_eq_next.mp h with ⟨e, he, -⟩ | ⟨-, -, rfl⟩
  · exact nomatch he
  · rfl

theorem exec_rdsr (ho : s.offered = []) :
    exec .rdsr s = .next { s with response := some (.ok (statusBytes s)) } :=
  exec_of_answers rfl rfl rfl rfl ho rfl

end Machine

open Machine

/-- Settles O49: of two chunks with the same block neither is shorter, and then they agree byte by byte. -/
theorem padIsInjective : Obligations.PadIsInjective := by
  refine ⟨fun c _ => pad_length c, fun c d hc hd h => ?_⟩
  have hcd : ¬ c.length < d.length := fun hlt => pad_ne_of_length_lt (Nat.le_of_lt_succ hd) hlt h
  have hdc : ¬ d.length < c.length := fun hlt => pad_ne_of_length_lt (Nat.le_of_lt_succ hc) hlt h.symm
  exact eq_of_pad_eq_of_length_eq (Nat.le_of_lt_succ hc) (by omega) h

/-- Settles O50: `exec_init`, `zeroState` being the replicated zero. -/
theorem initStartsADigest : Obligations.InitStartsADigest :=
  fun _ => exec_init

/-- Settles O52: the branch of `ABSORB` for a full block. -/
theorem absorbOfAFullBlockContinues : Obligations.AbsorbOfAFullBlockContinues :=
  fun _ _ => exec_absorb_full

/-- Settles O53: the branch of `ABSORB` for a shorter chunk. -/
theorem absorbOfAShortChunkEndsAbsorption : Obligations.AbsorbOfAShortChunkEndsAbsorption :=
  fun _ _ => exec_absorb_short

/-- Settles O54: the output is cut from the passes, which give at least as many bytes. -/
theorem squeezeGivesTheOutputBlocks : Obligations.SqueezeGivesTheOutputBlocks := by
  refine fun s len hp ho => ⟨_, exec_squeeze hp ho, ?_, fun k hk => squeezePasses_take_getD s.lanes hk⟩
  rw [List.length_take, squeezePasses_length, Nat.min_eq_left (le_passCount _)]

/-- Settles O58: the eight bytes of `statusBytes`; the numbers are the definitions of the codes. -/
theorem rdsrGivesStatusAndErrcmd : Obligations.RdsrGivesStatusAndErrcmd := by
  refine ⟨fun s ho => ?_, rfl, rfl, rfl, rfl, rfl, fun _ => rfl, rfl, rfl, rfl, rfl, rfl, fun _ => ⟨rfl, rfl⟩,
    fun e => ⟨?_, rfl⟩⟩
  · rw [exec_rdsr ho, statusBytes_eq]
  · cases e <;> rfl

/-- Settles O59: a consistent state has an exception exactly in `FAULT`, and `statusBytes_eq` gives each its byte. -/
theorem rdsrFirstByteIsOneOfEight : Obligations.RdsrFirstByteIsOneOfEight := by
  intro s t out hs ht hr
  have hout : statusBytes s = out := by simpa [exec_rdsr_response ht] using hr
  rw [← hout, statusBytes_eq, List.getD_cons_zero]
  cases he : s.err with
  | none =>
    have hp : s.phase ≠ .fault := fun hf => hs.err_iff_fault.mpr hf he
    cases hphase : s.phase with
    | fault => exact absurd hphase hp
    | idle | absorb | squeeze => decide
  | some e =>
    have hp : s.phase = .fault := hs.err_iff_fault.mp (by simp [he])
    rw [hp]
    cases e <;> decide

end Sys2Proof

/-! The `DIGEST` sequence: each of its commands finds the engine as the one before left it, and the lanes follow the digest
function (rules R490, R491, R493). -/

namespace Sys2Proof

namespace Machine

variable {s t : State}

/-! ### Running a sequence of inputs -/

theorem run_succ_of_step (h : step s = .next t) (k : Nat) : core.run (k + 1) s = core.run k t := by
  have hcore : core.step s = .next t := h
  simp only [Host.Core.run, hcore]

/-- A command of the host's that completes is one step of a run, its pair then gone. -/
theorem run_succ_of_exec {i : Instr} {b : List Byte} {rest : List HostInput} (hs : s.host = .command (encode i) b :: rest)
    (h : exec i s = .next t) (k : Nat) : core.run (k + 1) s = core.run k { t with host := rest } :=
  run_succ_of_step (step_of_exec hs (decodeOfEncodeIsTheCommand i) h) k

/-! ### The chunks of a message (rules R477, R490) -/

theorem length_of_mem_fullBlocks {M B : List Byte} (h : B ∈ fullBlocks M) : B.length = 168 := by
  simp only [fullBlocks, Config.rateBytes_eq, List.mem_map, List.mem_range] at h
  obtain ⟨k, hk, rfl⟩ := h
  rw [List.length_take, List.length_drop]
  omega

theorem lastChunk_length_lt (M : List Byte) : (lastChunk M).length < 168 := by
  rw [lastChunk, List.length_drop, Config.rateBytes_eq]
  omega

/-- No chunk is too long for its operand (rule R302; log 17). -/
theorem lengthOperand_toNat {n : Nat} (h : n ≤ 168) : (lengthOperand n).toNat = n := by
  rw [lengthOperand, BitVec.toNat_ofNat]
  omega

/-! ### The sequence (rule R491) -/

/-- `s` in the middle of a digest: the lanes absorbed so far, the last command `OK`, the inputs to come. -/
def State.absorbing (s : State) (S : Lanes) (inputs : List HostInput) : State :=
  { s with lanes := S, phase := .absorb, response := some (.ok []), host := inputs }

/-- `s` at the end of absorption: the lanes to squeeze, the last command `OK`, the inputs to come. -/
def State.squeezing (s : State) (S : Lanes) (inputs : List HostInput) : State :=
  { s with lanes := S, phase := .squeeze, response := some (.ok []), host := inputs }

/-- `INIT` starts from the all-zero state, whatever the lanes held. -/
theorem run_init {rest : List HostInput} (hp : s.phase = .idle) (hs : s.host = .command (encode .init) [] :: rest)
    (k : Nat) : core.run (k + 1) s = core.run k (s.absorbing zeroState rest) :=
  run_succ_of_exec hs (exec_init hp (State.offered_of_host hs)) k

/-- A full block is absorbed as it is, the phase staying `ABSORB` (rule R473). -/
theorem run_fullBlock {B : List Byte} (hB : B.length = 168) (s : State) (S : Lanes) (rest : List HostInput) (k : Nat) :
    core.run (k + 1) (s.absorbing S (absorbChunk B :: rest)) = core.run k (s.absorbing (absorbBlock S B) rest) := by
  have hlen : (lengthOperand B.length).toNat = 168 := (lengthOperand_toNat hB.le).trans hB
  have hx : exec (.absorb (lengthOperand B.length)) (s.absorbing S (absorbChunk B :: rest)) = _ :=
    exec_absorb_full rfl hlen hB
  exact run_succ_of_exec rfl hx k

/-- Full blocks one after another leave the fold that `absorbMessage` starts with (rule R490). -/
theorem run_fullBlocks {Bs : List (List Byte)} (hBs : ∀ B ∈ Bs, B.length = 168) (s : State) (S : Lanes)
    (rest : List HostInput) (k : Nat) :
    core.run (k + Bs.length) (s.absorbing S (Bs.map absorbChunk ++ rest)) =
      core.run k (s.absorbing (Bs.foldl absorbBlock S) rest) := by
  induction Bs generalizing S with
  | nil => rfl
  | cons B Bs ih =>
    obtain ⟨hB, hBs⟩ := List.forall_mem_cons.mp hBs
    rw [List.map_cons, List.cons_append, List.length_cons, ← Nat.add_assoc, run_fullBlock hB, ih hBs, List.foldl_cons]

/-- The last chunk is absorbed padded and ends absorption (rule R473). -/
theorem run_lastChunk {c : List Byte} (hc : c.length < 168) (s : State) (S : Lanes) (rest : List HostInput) (k : Nat) :
    core.run (k + 1) (s.absorbing S (absorbChunk c :: rest)) =
      core.run k (s.squeezing (absorbBlock S (pad c)) rest) := by
  have hlen : (lengthOperand c.length).toNat = c.length := lengthOperand_toNat hc.le
  have hx : exec (.absorb (lengthOperand c.length)) (s.absorbing S (absorbChunk c :: rest)) = _ :=
    exec_absorb_short rfl (hlen.trans_lt hc) hlen.symm
  exact run_succ_of_exec rfl hx k

/-- `SQUEEZE` gives the output and ends the digest (rule R474). -/
theorem run_squeeze (s : State) (S : Lanes) (L : Imm) (rest : List HostInput) (k : Nat) :
    core.run (k + 1) (s.squeezing S (.command (encode (.squeeze L)) [] :: rest)) = core.run k
      { s with lanes := zeroState, phase := .idle, host := rest,
               response := some (.ok ((squeezePasses (passCount L.toNat) S).1.take L.toNat)) } := by
  have hx : exec (.squeeze L) (s.squeezing S (.command (encode (.squeeze L)) [] :: rest)) = _ := exec_squeeze rfl rfl
  exact run_succ_of_exec rfl hx k

end Machine

open Machine

/-- Settles O56: `INIT`, the full blocks, the last chunk and `SQUEEZE` follow the definition of `digest`. -/
theorem digestSequenceComputesTheDigest : Obligations.DigestSequenceComputesTheDigest := by
  intro s M L rest hp hs
  have hlen : (digestCommands M L).length = 2 + (fullBlocks M).length + 1 := by
    simp [digestCommands]
    omega
  have hhost : s.host = .command (encode .init) [] :: ((fullBlocks M).map absorbChunk ++
      (absorbChunk (lastChunk M) :: .command (encode (.squeeze L)) [] :: rest)) := by
    simp [hs, digestCommands]
  rw [hlen, run_init hp hhost, run_fullBlocks fun _ => length_of_mem_fullBlocks,
    run_lastChunk (lastChunk_length_lt M), run_squeeze, hp]
  rfl

end Sys2Proof

/-! The permutation is a bijection (rule R439). The states are finite, so each step mapping need only be injective; theta and
chi are looked at bit by bit. -/

namespace Sys2Proof

namespace Machine

/-- The states are finite in number: an injective mapping of them is a bijection. -/
theorem bijective_of_injective {f : Lanes → Lanes} (h : Function.Injective f) : Function.Bijective f := by
  have hlanes : Function.Injective fun (S : Lanes) (j : Fin 25) => S[j].toFin := fun S T heq =>
    Vector.ext fun j hj => BitVec.eq_of_toFin_eq (congrFun heq ⟨j, hj⟩)
  have : Finite Lanes := Finite.of_injective _ hlanes
  exact Finite.injective_iff_bijective.mp h

/-! ### theta: the column parities of two states with the same image agree -/

/-- Coordinates are taken modulo 5, in a column too. -/
theorem columnParity_mod (S : Lanes) (x : Nat) : columnParity S (x % 5) = columnParity S x := by
  simp [columnParity, laneAt, laneIndex]

theorem columnCorrection_eq (S : Lanes) (x : Nat) :
    columnCorrection S x = columnParity S (x + 4) ^^^ rotl64 (columnParity S (x + 1)) 1 := by
  rw [columnCorrection, columnParity_mod, columnParity_mod]

/-- `laneAt_theta` for coordinates of any size. -/
theorem laneAt_theta_mod (S : Lanes) (x y : Nat) : laneAt (theta S) x y = laneAt S x y ^^^ columnCorrection S x := by
  have hx : x % 5 < 5 := Nat.mod_lt x (by decide)
  have hy : y % 5 < 5 := Nat.mod_lt y (by decide)
  have hcorrection : columnCorrection S (x % 5) = columnCorrection S x := by simp [columnCorrection]
  rw [← laneAt_mod, laneAt_theta S hx hy, laneAt_mod, hcorrection]

/-- A value added to an odd number of lanes stands once in their sum. -/
theorem xor_five_lanes (a b c d e v : Lane) :
    (a ^^^ v) ^^^ (b ^^^ v) ^^^ (c ^^^ v) ^^^ (d ^^^ v) ^^^ (e ^^^ v) = (a ^^^ b ^^^ c ^^^ d ^^^ e) ^^^ v := by
  have hbits : ∀ a b c d e v : Bool,
      (a ^^ v ^^ (b ^^ v) ^^ (c ^^ v) ^^ (d ^^ v) ^^ (e ^^ v)) = (a ^^ b ^^ c ^^ d ^^ e ^^ v) := by decide
  ext k hk
  simp only [BitVec.getElem_xor, hbits]

/-- A column's parity takes the correction once (rule R431). -/
theorem columnParity_theta (S : Lanes) (x : Nat) :
    columnParity (theta S) x = columnParity S x ^^^ columnCorrection S x := by
  simp only [columnParity, laneAt_theta_mod, xor_five_lanes]

/-- Bit `z mod 64` of the parity of column `x`. -/
def parityBit (S : Lanes) (x z : Nat) : Bool := (columnParity S x).getLsbD (z % 64)

theorem columnParity_ext {S T : Lanes} {x : Nat} (h : ∀ z, parityBit S x z = parityBit T x z) :
    columnParity S x = columnParity T x := by
  refine BitVec.eq_of_getLsbD_eq fun z hz => ?_
  simpa only [parityBit, Nat.mod_eq_of_lt hz] using h z

/-- What theta makes of a parity bit (rule R431): one bit of the column before, one of the column after, from one place
below. -/
theorem parityBit_theta (S : Lanes) (x z : Nat) :
    parityBit (theta S) x (z + 1) = (parityBit S x (z + 1) ^^ (parityBit S (x + 4) (z + 1) ^^ parityBit S (x + 1) z)) := by
  have hrot := rotl64_getLsbD (columnParity S (x + 1)) 1 (z % 64) (by decide) (Nat.mod_lt z (by decide))
  rw [Nat.mod_add_mod] at hrot
  simp only [parityBit, columnParity_theta, columnCorrection_eq, BitVec.getLsbD_xor, hrot]

/-- The recurrence over columns and bit places that the difference of the parities satisfies, at distance `d` and
rotation `n`. -/
def ThetaRecurrence (f : Nat → Nat → Bool) (d n : Nat) : Prop :=
  ∀ x z, f x (z + n) = (f (x + 4 * d) (z + n) ^^ f (x + d) z)

variable {f : Nat → Nat → Bool} {d n : Nat}

/-- The recurrence applied to itself doubles both the distance and the rotation: the two middle terms cancel. -/
theorem ThetaRecurrence.double (h : ThetaRecurrence f d n) : ThetaRecurrence f (2 * d) (2 * n) := by
  intro x z
  have hz : z + 2 * n = z + n + n := by omega
  have h8 : x + 4 * (2 * d) = x + 4 * d + 4 * d := by omega
  have h5 : x + d + 4 * d = x + 4 * d + d := by omega
  have h2 : x + 2 * d = x + d + d := by omega
  rw [hz, h8, h2, h x (z + n), h (x + 4 * d) (z + n), h (x + d) z, h5, Bool.xor_assoc,
    ← Bool.xor_assoc (f (x + 4 * d + d) (z + n)), Bool.xor_self, Bool.false_xor]

theorem ThetaRecurrence.pow (h : ThetaRecurrence f 1 1) (k : Nat) : ThetaRecurrence f (2 ^ k) (2 ^ k) := by
  induction k with
  | zero => exact h
  | succ k ih =>
    rw [Nat.pow_succ']
    exact ih.double

/-- After six doublings the rotation is by 64, that is none, and each column is the sum of its two neighbours; on five columns
only zero is (rule R439). -/
theorem ThetaRecurrence.eq_false (h : ThetaRecurrence f 1 1) (hcolumn : ∀ x z, f (x + 5) z = f x z)
    (hplace : ∀ x z, f x (z + 64) = f x z) (x z : Nat) : f x z = false := by
  have hcolumns : ∀ k x, f (x + 5 * k) z = f x z := by
    intro k
    induction k with
    | zero => exact fun _ => rfl
    | succ k ih => exact fun x => (hcolumn (x + 5 * k) z).trans (ih x)
  have hsum : ∀ x, f x z = (f (x + 1) z ^^ f (x + 4) z) := by
    intro x
    have h6 : f x (z + 64) = (f (x + 256) (z + 64) ^^ f (x + 64) z) := h.pow 6 x z
    have h256 : x + 256 = x + 1 + 5 * 51 := by omega
    have h64 : x + 64 = x + 4 + 5 * 12 := by omega
    rwa [hplace, hplace, h256, h64, hcolumns, hcolumns] at h6
  have hzero : ∀ a₀ a₁ a₂ a₃ a₄ : Bool, a₀ = (a₁ ^^ a₄) → a₁ = (a₂ ^^ a₀) → a₂ = (a₃ ^^ a₁) → a₃ = (a₄ ^^ a₂) →
      a₄ = (a₀ ^^ a₃) → a₀ = false := by
    decide
  refine hzero (f x z) (f (x + 1) z) (f (x + 2) z) (f (x + 3) z) (f (x + 4) z) (hsum x) ?_ ?_ ?_ ?_
  · rw [hsum (x + 1), ← hcolumn x]
  · rw [hsum (x + 2), ← hcolumn (x + 1)]
  · rw [hsum (x + 3), ← hcolumn (x + 2)]
  · rw [hsum (x + 4), ← hcolumn x, ← hcolumn (x + 3)]

/-- The parities of two states with the same image differ by a solution of the recurrence. -/
theorem thetaRecurrence_of_theta_eq {S T : Lanes} (h : theta S = theta T) :
    ThetaRecurrence (fun x z => parityBit S x z ^^ parityBit T x z) 1 1 := by
  have hrearrange : ∀ a b c a' b' c' : Bool, (a ^^ (b ^^ c)) = (a' ^^ (b' ^^ c')) →
      (a ^^ a') = ((b ^^ b') ^^ (c ^^ c')) := by
    decide
  intro x z
  apply hrearrange
  rw [Nat.mul_one, ← parityBit_theta, ← parityBit_theta, h]

/-- Two states with the same image have the same parities, so the same corrections, so the same lanes. -/
theorem theta_injective : Function.Injective theta := by
  intro S T h
  have hcolumn (U : Lanes) (x z : Nat) : parityBit U (x + 5) z = parityBit U x z := by
    rw [parityBit, ← columnParity_mod, Nat.add_mod_right, columnParity_mod, parityBit]
  have hplace (U : Lanes) (x z : Nat) : parityBit U x (z + 64) = parityBit U x z := by
    rw [parityBit, Nat.add_mod_right, parityBit]
  have hparity (x : Nat) : columnParity S x = columnParity T x := by
    refine columnParity_ext fun z => ?_
    have hzero := (thetaRecurrence_of_theta_eq h).eq_false (fun x z => by simp only [hcolumn])
      (fun x z => by simp only [hplace]) x z
    simpa using hzero
  refine lanes_ext fun x _ y _ => ?_
  have hlane : laneAt (theta S) x y = laneAt (theta T) x y := by rw [h]
  rw [laneAt_theta_mod, laneAt_theta_mod, columnCorrection_eq, columnCorrection_eq, hparity, hparity] at hlane
  exact (BitVec.xor_left_inj _).mp hlane

/-! ### rho, pi and iota -/

theorem rotl64_injective {n : Nat} (hn : n < 64) : Function.Injective fun v => rotl64 v n := by
  refine fun v w h => BitVec.eq_of_getLsbD_eq fun k hk => ?_
  rw [← rotl64_getLsbD v n k hn hk, ← rotl64_getLsbD w n k hn hk]
  exact congrArg (BitVec.getLsbD · _) h

theorem rho_injective : Function.Injective rho := by
  refine fun S T h => lanes_ext fun x hx y hy => rotl64_injective (rhoOffset_lt x y) ?_
  show rotl64 (laneAt S x y) _ = rotl64 (laneAt T x y) _
  rw [← laneAt_rho S hx hy, ← laneAt_rho T hx hy, h]

/-- The lane at `(x, y)` is moved to `(y, 2x + 3y)`, modulo 5. -/
theorem pi_injective : Function.Injective pi := by
  refine fun S T h => lanes_ext fun x hx y hy => ?_
  have hsource : (y + 3 * ((2 * x + 3 * y) % 5)) % 5 = x := by omega
  have hlane : laneAt (pi S) y ((2 * x + 3 * y) % 5) = laneAt (pi T) y ((2 * x + 3 * y) % 5) := by rw [h]
  have hlt : (2 * x + 3 * y) % 5 < 5 := Nat.mod_lt _ (by decide)
  rwa [laneAt_pi S hy hlt, laneAt_pi T hy hlt, hsource] at hlane

/-- The constant cancels itself. -/
theorem iota_involutive (ir : Nat) : Function.Involutive fun S => iota S ir := by
  intro S
  ext j hj : 1
  by_cases h : j = 0
  · subst h
    simp only [iota_getElem_zero, BitVec.xor_assoc, BitVec.xor_self, BitVec.xor_zero]
  · simp only [iota_getElem_of_ne _ _ _ hj h]

/-! ### chi: 32 values of a row -/

/-- chi on the five bits of a row (rule R434). -/
def chiRow (a : Fin 5 → Bool) (x : Fin 5) : Bool := a x ^^ (!a (x + 1) && a (x + 2))

theorem chiRow_injective : Function.Injective chiRow := by
  decide +kernel

/-- The five bits of row `y` at place `z`. -/
def rowBits (S : Lanes) (y z : Nat) (x : Fin 5) : Bool := (laneAt S x y).getLsbD z

theorem rowBits_chi (S : Lanes) {y z : Nat} (hy : y < 5) (hz : z < 64) :
    rowBits (chi S) y z = chiRow (rowBits S y z) := by
  funext x
  simp [rowBits, chiRow, laneAt_chi S x.isLt hy, hz, Fin.val_add]

theorem chi_injective : Function.Injective chi := by
  refine fun S T h => lanes_ext fun x hx y hy => BitVec.eq_of_getLsbD_eq fun z hz => ?_
  have hrow : rowBits S y z = rowBits T y z := by
    apply chiRow_injective
    rw [← rowBits_chi S hy hz, ← rowBits_chi T hy hz, h]
  exact congrFun hrow ⟨x, hx⟩

/-! ### Rounds -/

theorem rnd_bijective (ir : Nat) : Function.Bijective fun S => rnd S ir := by
  have hsteps := (bijective_of_injective chi_injective).comp ((bijective_of_injective pi_injective).comp
    ((bijective_of_injective rho_injective).comp (bijective_of_injective theta_injective)))
  exact (iota_involutive ir).bijective.comp hsteps

theorem foldl_rnd_bijective (rounds : List Nat) : Function.Bijective fun S => rounds.foldl rnd S := by
  induction rounds with
  | nil => exact Function.bijective_id
  | cons ir rounds ih => exact ih.comp (rnd_bijective ir)

theorem permute_bijective (nr : Nat) : Function.Bijective fun S => permute S nr := foldl_rnd_bijective _

end Machine

open Machine

/-- Settles O47: the five step mappings are injective on a finite set of states, and rounds compose them. -/
theorem permutationIsABijection : Obligations.PermutationIsABijection :=
  ⟨bijective_of_injective theta_injective, bijective_of_injective rho_injective, bijective_of_injective pi_injective,
    bijective_of_injective chi_injective, fun ir => (iota_involutive ir).bijective, rnd_bijective,
    fun nr _ => permute_bijective nr, permute_bijective _⟩

end Sys2Proof
